-- ==== Sys2Proof/Word.lean ====
section
/-! DEFINITION. The two widths of the machine's values (spec 00_scope.md R5, R9): all unsigned. -/

namespace Sys2Proof

/-- An 8-bit unsigned value: a general register, a timer, a byte of memory. -/
abbrev Byte := BitVec 8

/-- A 16-bit unsigned value: PC, I, a stack entry, an instruction word. -/
abbrev Word := BitVec 16

/-- The index of a general register, 0x0 to 0xF (R21), as fields x and y carry it. -/
abbrev Reg := Fin 16

/-- The index of a key, 0x0 to 0xF (R37). -/
abbrev Key := Fin 16

end Sys2Proof
end

