-- ==== Sys2Proof/Config.lean ====
section
/-! DEFINITION. What an implementation fixes (the open parameters of 00_scope.md R6) and the free values. -/

namespace Sys2Proof

/-- What a step does with an unknown instruction (60_exceptions.md R254, D4). -/
inductive UnknownPolicy where
  /-- report the word and its address and advance by 2 -/
  | skip
  /-- raise Halt(UnknownInstruction) -/
  | halt
  deriving DecidableEq, Repr

/-- Where a sprite pixel outside the 64x32 grid lands (44_graphics.md R212, D13). -/
inductive DrawEdge where
  /-- modulo 64 and 32, per pixel -/
  | wrap
  /-- not drawn -/
  | clip
  deriving DecidableEq, Repr

/-- Which of several pressed keys wait-key stores (45_timers_input.md R235, D12). -/
inductive WaitKeyPick where
  | lowest
  | highest
  /-- an arbitrary member of the keys down, a draw -/
  | any
  deriving DecidableEq, Repr

/-- The parameters of 00_scope.md R6 that a rule depends on.
DESIGN CHOICE (log 2): they stand in State as data no event changes, so every statement over all states
holds for every value of them. Safe. -/
structure Params where
  unknownPolicy : UnknownPolicy
  drawEdge : DrawEdge
  waitKeyPick : WaitKeyPick
  deriving DecidableEq, Repr

/-- The random byte of the n-th draw: a free value under no law (42_alu.md R171, D19, U6; log 3). -/
opaque Config.rand8 (n : Nat) : Byte

/-- The free choice wait-key makes under WAITKEY_PICK = any at the n-th draw: the chosen key is member number
`anyPick n` modulo the number of keys down (45_timers_input.md R235, U14; log 4). -/
opaque Config.anyPick (n : Nat) : Nat

end Sys2Proof
end

