-- ==== Sys2Proof/Machine/Defaults.lean ====
section
/-! DEFINITION. The values this spec gives the open parameters (00_scope.md R6) and the constant FONT (20_memory.md R64). -/

namespace Sys2Proof

/-- The defaults of 00_scope.md R6: skip, wrap, lowest. -/
def Config.defaults : Params where
  unknownPolicy := .skip
  drawEdge := .wrap
  waitKeyPick := .lowest

/-- FONT, the 80 bytes at 0x000 to 0x04F after reset: 16 glyphs of 5 rows, digit d at 5*d (20_memory.md R63, R64).
The bytes are the spec's general-knowledge table (G3; log 11). -/
def Config.font : List Byte :=
  [0xF0, 0x90, 0x90, 0x90, 0xF0,
   0x20, 0x60, 0x20, 0x20, 0x70,
   0xF0, 0x10, 0xF0, 0x80, 0xF0,
   0xF0, 0x10, 0xF0, 0x10, 0xF0] ++
  [0x90, 0x90, 0xF0, 0x10, 0x10,
   0xF0, 0x80, 0xF0, 0x10, 0xF0,
   0xF0, 0x80, 0xF0, 0x90, 0xF0,
   0xF0, 0x10, 0x20, 0x40, 0x40] ++
  [0xF0, 0x90, 0xF0, 0x90, 0xF0,
   0xF0, 0x90, 0xF0, 0x10, 0xF0,
   0xF0, 0x90, 0xF0, 0x90, 0x90,
   0xE0, 0x90, 0xE0, 0x90, 0xE0] ++
  [0xF0, 0x80, 0x80, 0x80, 0xF0,
   0xE0, 0x90, 0x90, 0x90, 0xE0,
   0xF0, 0x80, 0xF0, 0x80, 0xF0,
   0xF0, 0x80, 0xF0, 0x80, 0x80]

end Sys2Proof
end

