-- ==== Sys2Proof/Machine/State.lean ====
section
/-! DEFINITION. The complete state of the Machine (10_state.md R20) as plain data, and its reset value (R44). -/

namespace Sys2Proof.Machine

/-- CTL, the control state (10_state.md R40). -/
inductive Ctl where
  /-- the next step fetches at PC -/
  | ready
  /-- the last step executed wait-key and found no key pressed -/
  | awaitKey
  /-- a halt condition was met; only reset leaves it -/
  | halted
  deriving DecidableEq, Repr

/-- The causes of a halt (10_state.md R41, 60_exceptions.md R253). CAUSE itself is an Option of these, None being code 0. -/
inductive HaltCause where
  /-- raised by a step whose word is unknown, only when UNKNOWN_POLICY = halt (R254) -/
  | unknownInstruction
  /-- raised by a step with PC > 0xFFE (20_memory.md R67) -/
  | fetchBounds
  /-- raised by call with SP = 16 (10_state.md R33) -/
  | stackOverflow
  /-- raised by return with SP = 0 (10_state.md R34) -/
  | stackUnderflow
  /-- raised by draw, store-bcd, store-regs, load-regs addressing above 0xFFF (20_memory.md R66) -/
  | memoryBounds
  /-- raised by skip-key-pressed, skip-key-not-pressed with Vx > 15 (45_timers_input.md R233) -/
  | keyIndexRange
  deriving DecidableEq, Repr

/-- The outcome a step reports to its caller (40_step_cycle.md R125). -/
inductive StepOutcome where
  /-- one instruction completed -/
  | executed
  /-- wait-key found no key pressed -/
  | blocked
  /-- the unknown word and its address, under UNKNOWN_POLICY = skip -/
  | unknownSkipped (w pc : Word)
  /-- a halt was raised in this step, or the machine was already halted; the value of CAUSE -/
  | halted (cause : Option HaltCause)
  deriving DecidableEq, Repr

/-- The framebuffer: 32 rows of 64 one-bit pixels, the cell FB[cx, cy] being bit cx of row cy (10_state.md R38, D17;
log 8). -/
abbrev FrameBuffer := Vector (BitVec 64) 32

/-- A cell of the framebuffer: its column, 0 (left) to 63, and its row, 0 (top) to 31 (10_state.md R38). -/
abbrev Cell := Fin 64 × Fin 32

/-- Memory: the bytes that differ from their reset contents, by rising address (20_memory.md R60; log 7). -/
abbrev Memory := List Host.Cell

/-- The state of the Machine (10_state.md R20). The last three fields are the model's own. -/
structure State where
  /-- V[0..15], V[15] being the flag (R21, R22) -/
  v : Vector Byte 16
  /-- PC (R23) -/
  pc : Word
  /-- I (R25, R26) -/
  idx : Word
  /-- STACK[0..15] (R30) -/
  stack : Vector Word 16
  /-- SP, the number of entries in use, 0 to 16 (R31) -/
  sp : Fin 17
  /-- DT (R35) -/
  dt : Byte
  /-- ST (R36) -/
  st : Byte
  /-- KEY[0..15] (R37) -/
  key : Vector Bool 16
  /-- FB (R38) -/
  fb : FrameBuffer
  /-- RD (R39) -/
  rd : Bool
  /-- MEM (R42) -/
  mem : Memory
  /-- CTL (R40) -/
  ctl : Ctl
  /-- CAUSE (R41) -/
  cause : Option HaltCause
  /-- DESIGN CHOICE (log 2): the open parameters of 00_scope.md R6, which nothing changes. Safe. -/
  params : Params
  /-- DESIGN CHOICE (log 3): how many free values have been drawn. Safe. -/
  draws : Nat
  /-- DESIGN CHOICE (log 1): the outcome the last step reported (40_step_cycle.md R125), none before the first. Safe. -/
  lastOutcome : Option StepOutcome
  deriving DecidableEq, Repr

/-- No step ends in a Host fault: every stop the spec describes is its own HALTED control state, which a step enters
as a next state (60_exceptions.md R251, R252; log 5). Raised by nobody; safe. -/
inductive Fault where
  deriving DecidableEq, Repr

/-- Why a step has no meaning. -/
inductive Refusal where
  /-- Raised by exec for an instruction that has no meaning yet; no arm of exec raises it now. Safe: the run stops. -/
  | notModelled (mnemonic : String)
  deriving DecidableEq, Repr

/-- The state after `reset` (10_state.md R44, 70_reset_and_hazards.md R290). Memory lists nothing: the font stands at
0x000 to 0x04F and 0 elsewhere, which is what an unlisted address reads as. -/
def State.reset : State where
  v := Vector.replicate 16 0
  pc := 0x200
  idx := 0
  stack := Vector.replicate 16 0
  sp := 0
  dt := 0
  st := 0
  key := Vector.replicate 16 false
  fb := Vector.replicate 32 0
  rd := true
  mem := []
  ctl := .ready
  cause := none
  params := Config.defaults
  draws := 0
  lastOutcome := none

end Sys2Proof.Machine
end

