-- ==== Sys2Proof/Machine/Ops.lean ====
section
/-! DEFINITION. The named operations over registers, memory, the call stack, the framebuffer and the control state.
Every rule of the instruction families is written with these (00_scope.md R11). -/

namespace Sys2Proof.Machine

/-! ### Memory (20_memory.md) -/

/-- What an address nothing has written reads as: its content after reset, the font in 0x000 to 0x04F and 0 elsewhere
(R62 to R64). -/
def Memory.unlisted (a : Nat) : Byte := Config.font.getD a 0

/-- MEM[a] (R60). The bounds of R66 and R67 are checked by the instructions, before any access. -/
def Memory.read : Memory → Nat → Byte
  | [], a => Memory.unlisted a
  | (b, v) :: m, a => if a = b then v else Memory.read m a

/-- The bytes at n addresses from a on. -/
def Memory.readBytes (m : Memory) (a n : Nat) : List Byte := (List.range n).map fun k => Memory.read m (a + k)

/-- The memory without its entry for a. -/
def Memory.forget (m : Memory) (a : Nat) : Memory := m.filter fun c => c.1 != a

/-- Insert an entry before the first one with a greater address. -/
def Memory.insert : Memory → Nat → Byte → Memory
  | [], a, v => [(a, v)]
  | (b, u) :: m, a, v => if a < b then (a, v) :: (b, u) :: m else (b, u) :: Memory.insert m a v

/-- MEM[a] <- v. Writing what an unlisted address reads as leaves no entry, so equal memories are equal lists. -/
def Memory.write (m : Memory) (a : Nat) (v : Byte) : Memory :=
  if v = Memory.unlisted a then Memory.forget m a else Memory.insert (Memory.forget m a) a v

/-- Bytes written to consecutive addresses from a on, in that order (R69). -/
def Memory.writeBytes : Memory → Nat → List Byte → Memory
  | m, _, [] => m
  | m, a, b :: bs => Memory.writeBytes (Memory.write m a b) (a + 1) bs

/-- Entries from address lo on, rising, below 4096, none equal to what its address reads as unlisted. -/
def Memory.wfFrom : Nat → Memory → Bool
  | _, [] => true
  | lo, (a, v) :: m => decide (lo ≤ a) && decide (a < 4096) && (v != Memory.unlisted a) && Memory.wfFrom (a + 1) m

/-- The canonical form of a memory. -/
def Memory.wf (m : Memory) : Bool := Memory.wfFrom 0 m

/-- All `len` addresses from base on are in memory: the check of R66, on naturals. An access of no byte is in range. -/
def inMemory (base : Word) (len : Nat) : Bool := len == 0 || decide (base.toNat + (len - 1) ≤ 0xFFF)

/-! ### Registers -/

/-- V[x] (10_state.md R21). -/
def State.reg (s : State) (x : Reg) : Byte := s.v[x]

/-- V[x] <- b. -/
def State.setReg (s : State) (x : Reg) (b : Byte) : State := { s with v := s.v.set x b }

/-- V[15], the flag register (10_state.md R22). -/
def flagReg : Reg := 15

/-- V[15] <- b. -/
def State.setFlag (s : State) (b : Byte) : State := s.setReg flagReg b

/-- I <- a (10_state.md R25). -/
def State.setIdx (s : State) (a : Word) : State := { s with idx := a }

/-- DT <- b (10_state.md R35). -/
def State.setDt (s : State) (b : Byte) : State := { s with dt := b }

/-- ST <- b (10_state.md R36). -/
def State.setSt (s : State) (b : Byte) : State := { s with st := b }

/-- The registers V[0] to V[x] (43_index_memory.md R194). -/
def State.regsUpTo (s : State) (x : Reg) : List Byte := s.v.toList.take (x.val + 1)

/-- V[k] <- MEM[a + k] for k from 0 to x (43_index_memory.md R195). -/
def State.loadRegsFrom (s : State) (a : Nat) (x : Reg) : State :=
  { s with v := Vector.ofFn fun k : Reg => if k ≤ x then Memory.read s.mem (a + k.val) else s.reg k }

/-- Bytes written to memory from a on. -/
def State.storeBytes (s : State) (a : Nat) (bs : List Byte) : State := { s with mem := Memory.writeBytes s.mem a bs }

/-- n free values are used up (log 3). -/
def State.drawn (s : State) (n : Nat) : State := { s with draws := s.draws + n }

/-! ### The call stack (10_state.md R33, R34) -/

/-- Push(v): StackOverflow when SP = 16, else STACK[SP] <- v and SP <- SP + 1 (R33). -/
def State.push (s : State) (w : Word) : Except HaltCause State :=
  if h : s.sp.val < 16 then
    .ok { s with stack := s.stack.set s.sp.val w h, sp := ⟨s.sp.val + 1, Nat.succ_lt_succ h⟩ }
  else .error .stackOverflow

/-- Pop(): StackUnderflow when SP = 0, else SP <- SP - 1 and the result is STACK[SP]; the entry keeps its value (R34). -/
def State.pop (s : State) : Except HaltCause (Word × State) :=
  if h : s.sp.val = 0 then .error .stackUnderflow
  else
    have hlt : s.sp.val - 1 < 16 := by have := s.sp.isLt; omega
    .ok (s.stack[s.sp.val - 1], { s with sp := ⟨s.sp.val - 1, Nat.lt_succ_of_lt hlt⟩ })

/-! ### The framebuffer (10_state.md R38, 44_graphics.md R212) -/

/-- FB[cx, cy]. -/
def pixel (fb : FrameBuffer) (cell : Cell) : Bool := fb[cell.2].getLsbD cell.1

/-- FB[cx, cy] <- FB[cx, cy] ^ 1. -/
def togglePixel (fb : FrameBuffer) (cell : Cell) : FrameBuffer :=
  fb.set cell.2 (fb[cell.2] ^^^ BitVec.twoPow 64 cell.1)

/-- Every cell 0. -/
def blank : FrameBuffer := Vector.replicate 32 0

/-- Place(px, py): the cell a sprite pixel lands on, none when it is outside under clip (R212). -/
def place (edge : DrawEdge) (px py : Nat) : Option Cell :=
  match edge with
  | .wrap => some (⟨px % 64, Nat.mod_lt _ (by decide)⟩, ⟨py % 32, Nat.mod_lt _ (by decide)⟩)
  | .clip => if h : px < 64 ∧ py < 32 then some (⟨px, h.1⟩, ⟨py, h.2⟩) else none

/-- The cells under the 1 bits of one sprite row, leftmost first, bit 7 being the left column (R211). -/
def rowCells (edge : DrawEdge) (px py : Nat) (b : Byte) : List Cell :=
  (List.range 8).flatMap fun c => if b.getLsbD (7 - c) then (place edge (px + c) py).toList else []

/-- The cells under the 1 bits of a sprite, top row first (R211). -/
def spriteCells (edge : DrawEdge) (px : Nat) : Nat → List Byte → List Cell
  | _, [] => []
  | py, b :: bs => rowCells edge px py b ++ spriteCells edge px (py + 1) bs

/-- Toggle one cell, and note a hit when it was on (R211). -/
def plot (d : FrameBuffer × Bool) (cell : Cell) : FrameBuffer × Bool := (togglePixel d.1 cell, d.2 || pixel d.1 cell)

/-- Toggle the cells in order; the flag says whether one of them was on (R211). -/
def plotAll (fb : FrameBuffer) (cells : List Cell) : FrameBuffer × Bool := cells.foldl plot (fb, false)

/-- FB <- fb; RD <- 1 (10_state.md R39: every clear-screen and every draw sets RD). -/
def State.show (s : State) (fb : FrameBuffer) : State := { s with fb := fb, rd := true }

/-- Row cy of the framebuffer as the presentation collaborator reads it, by increasing cx (44_graphics.md R214). -/
def scanline (fb : FrameBuffer) (cy : Fin 32) : List Bool := (List.finRange 64).map fun cx => pixel fb (cx, cy)

/-! ### Keys (10_state.md R37, 45_timers_input.md R235) -/

/-- The keys down, lowest first. -/
def pressedKeys (key : Vector Bool 16) : List Key := (List.finRange 16).filter fun k => key[k]

/-- pick(P) for P = k :: ks, lowest first (R235). Under `any` the free choice of the given draw decides (log 4). -/
def pickKey (pick : WaitKeyPick) (draw : Nat) (k : Key) (ks : List Key) : Key :=
  match pick with
  | .lowest => k
  | .highest => (k :: ks).getLastD k
  | .any => (k :: ks).getD (Config.anyPick draw % (ks.length + 1)) k

/-! ### The end of an instruction (40_step_cycle.md R120, R125) -/

/-- The instruction completes: pc <- target, outcome Executed, CTL <- READY. -/
def State.complete (s : State) (target : Word) : State :=
  { s with pc := target, ctl := .ready, lastOutcome := some .executed }

/-- pc <- PC + 2, the sequential outcome (10_state.md R24). -/
def State.advance (s : State) : State := s.complete (s.pc + 2)

/-- pc <- PC + 4 when the condition is true, else PC + 2 (10_state.md R24, 41_control_flow.md R140). -/
def State.skipIf (s : State) (c : Bool) : State := s.complete (if c then s.pc + 4 else s.pc + 2)

/-- Outcome Blocked: nothing changes, CTL <- AWAIT_KEY (40_step_cycle.md R126). -/
def State.block (s : State) : State := { s with ctl := .awaitKey, lastOutcome := some .blocked }

/-! ### Taking a halt, and leaving it (60_exceptions.md R252, R257) -/

/-- raise Halt(c): CTL <- HALTED, CAUSE <- c, outcome Halted(c), and nothing else changes (R252). -/
def State.raiseHalt (s : State) (c : HaltCause) : State :=
  { s with ctl := .halted, cause := some c, lastOutcome := some (.halted (some c)) }

/-- A step in HALTED changes no state and reports Halted(CAUSE) (40_step_cycle.md R121). -/
def State.stayHalted (s : State) : State := { s with lastOutcome := some (.halted s.cause) }

/-- There is no return from HALTED but `reset` (R257), which puts every piece of the machine's state at its reset value
(70_reset_and_hazards.md R290). The parameters are no state of the machine, and drawn values stay drawn (log 12). -/
def State.doReset (s : State) : State := { State.reset with params := s.params, draws := s.draws }

/-- An unknown instruction: under `skip` report it and advance by 2, under `halt` raise Halt(UnknownInstruction) (R254). -/
def State.unknown (s : State) (w : Word) : State :=
  match s.params.unknownPolicy with
  | .skip => { s with pc := s.pc + 2, ctl := .ready, lastOutcome := some (.unknownSkipped w s.pc) }
  | .halt => s.raiseHalt .unknownInstruction

end Sys2Proof.Machine
end

