-- ==== Sys2Proof/Machine/Operands.lean ====
section
/-! DEFINITION. The operand forms (30_encoding.md R93): registers are read by `State.reg`, nn and n are used as they
stand, nnn is a byte address, and memory is always addressed through I. -/

namespace Sys2Proof.Machine

/-- nnn as a 16-bit address: the unsigned number its bits denote (R93). -/
def addrOf (nnn : BitVec 12) : Word := nnn.setWidth 16

/-- An 8-bit value as a 16-bit one, zeros above (00_scope.md R11, zext). -/
def wide (b : Byte) : Word := b.setWidth 16

/-- The effective address of a data access: I, never reduced modulo the memory size (43_index_memory.md). -/
def State.dataAddr (s : State) : Nat := s.idx.toNat

/-- The sprite of a draw: n bytes from MEM[I] on (44_graphics.md R211). -/
def State.spriteBytes (s : State) (n : BitVec 4) : List Byte := Memory.readBytes s.mem s.dataAddr n.toNat

/-- The key an 8-bit value names, none above 15 (45_timers_input.md R233, D11: no masking). -/
def keyOf (b : Byte) : Option Key := if h : b.toNat < 16 then some ⟨b.toNat, h⟩ else none

/-- The three decimal digits of a byte: hundreds, tens, ones (43_index_memory.md R193). -/
def bcdDigits (b : Byte) : List Byte :=
  [BitVec.ofNat 8 (b.toNat / 100), BitVec.ofNat 8 (b.toNat / 10 % 10), BitVec.ofNat 8 (b.toNat % 10)]

end Sys2Proof.Machine
end

