-- ==== Sys2Proof/Machine/Flags.lean ====
section
/-! DEFINITION. Every value an instruction writes to the flag V[15] (10_state.md R27, 42_alu.md R172), and the two
orders in which result and flag are written (D15). -/

namespace Sys2Proof.Machine

/-- A flag as the byte V[15] receives. -/
def flagByte (b : Bool) : Byte := if b then 1 else 0

/-- add-reg: 1 if a + b > 255 (R166). -/
def carryFlag (a b : Byte) : Byte := flagByte (decide (a.toNat + b.toNat > 255))

/-- sub (a - b): 0 if b > a, else 1, the borrow complement (R167); subn uses it with the operands exchanged (R169). -/
def noBorrowFlag (a b : Byte) : Byte := flagByte (!decide (b.toNat > a.toNat))

/-- shr: the bit shifted out, Vx & 1 (R168). -/
def lowBitFlag (a : Byte) : Byte := a &&& 1

/-- shl: the bit shifted out, Vx >> 7 (R170). -/
def highBitFlag (a : Byte) : Byte := a >>> 7

/-- add-index: 1 if the I just written exceeds 0xFFF (43_index_memory.md R191, D22). -/
def indexFlag (i : Word) : Byte := flagByte (decide (i.toNat > 0xFFF))

/-- V[x] <- result; V[15] <- flag: with x = 15 the flag stands (add-reg, sub, subn). -/
def State.resultThenFlag (s : State) (x : Reg) (result flag : Byte) : State := (s.setReg x result).setFlag flag

/-- V[15] <- flag; V[x] <- f V[x], where V[x] is read after the flag is written (shr, shl). -/
def State.flagThenShift (s : State) (x : Reg) (flag : Byte) (f : Byte → Byte) : State :=
  (s.setFlag flag).setReg x (f ((s.setFlag flag).reg x))

end Sys2Proof.Machine
end

