-- ==== Sys2Proof/Machine/Control.lean ====
section
/-! DEFINITION. Control-flow instructions (41_control_flow.md R140 to R148). -/

namespace Sys2Proof.Machine

/-- return (R141): a <- Pop(); pc <- a + 2. The popped value is the address of the call itself. -/
def execRet (s : State) : Host.Outcome State Fault Refusal :=
  match s.pop with
  | .error c => .next (s.raiseHalt c)
  | .ok (a, s') => .next (s'.complete (a + 2))

/-- jump nnn (R142). -/
def execJump (nnn : BitVec 12) (s : State) : Host.Outcome State Fault Refusal := .next (s.complete (addrOf nnn))

/-- call nnn (R143): Push(PC), the address of the call itself; pc <- nnn. -/
def execCall (nnn : BitVec 12) (s : State) : Host.Outcome State Fault Refusal :=
  match s.push s.pc with
  | .error c => .next (s.raiseHalt c)
  | .ok s' => .next (s'.complete (addrOf nnn))

/-- skip-eq Vx,nn (R144). -/
def execSkipEqImm (x : Reg) (nn : Byte) (s : State) : Host.Outcome State Fault Refusal := .next (s.skipIf (s.reg x == nn))

/-- skip-ne Vx,nn (R145). -/
def execSkipNeImm (x : Reg) (nn : Byte) (s : State) : Host.Outcome State Fault Refusal := .next (s.skipIf (s.reg x != nn))

/-- skip-eq Vx,Vy (R146). -/
def execSkipEqReg (x y : Reg) (s : State) : Host.Outcome State Fault Refusal := .next (s.skipIf (s.reg x == s.reg y))

/-- skip-ne Vx,Vy (R147). -/
def execSkipNeReg (x y : Reg) (s : State) : Host.Outcome State Fault Refusal := .next (s.skipIf (s.reg x != s.reg y))

/-- jump nnn+V0 (R148): the sum is at most 0x10FE, so 16 bits hold it. -/
def execJumpV0 (nnn : BitVec 12) (s : State) : Host.Outcome State Fault Refusal :=
  .next (s.complete (addrOf nnn + wide (s.reg 0)))

end Sys2Proof.Machine
end

