-- ==== Sys2Proof/Machine/Graphics.lean ====
section
/-! DEFINITION. Graphics instructions (44_graphics.md R210 to R212). -/

namespace Sys2Proof.Machine

/-- clear-screen (R210). -/
def execClearScreen (s : State) : Host.Outcome State Fault Refusal := .next (s.show blank).advance

/-- draw Vx,Vy,n (R211): XOR n sprite rows from MEM[I] at (Vx, Vy); V[15] <- 1 if a set cell was cleared, else 0, written
once after all cells; RD <- 1. The coordinates are read before V[15] is written (D27). -/
def execDraw (x y : Reg) (n : BitVec 4) (s : State) : Host.Outcome State Fault Refusal :=
  if inMemory s.idx n.toNat then
    let drawing := plotAll s.fb
      (spriteCells s.params.drawEdge (s.reg x).toNat (s.reg y).toNat (s.spriteBytes n))
    .next ((s.show drawing.1).setFlag (flagByte drawing.2)).advance
  else .next (s.raiseHalt .memoryBounds)

end Sys2Proof.Machine
end

