-- ==== Sys2Proof/Machine/IndexMemory.lean ====
section
/-! DEFINITION. Index-register and memory instructions (43_index_memory.md R190 to R195). -/

namespace Sys2Proof.Machine

/-- set-index nnn (R190). -/
def execSetIndex (nnn : BitVec 12) (s : State) : Host.Outcome State Fault Refusal := .next (s.setIdx (addrOf nnn)).advance

/-- add-index Vx (R191): I modulo 65536, then the flag from the I just written. -/
def execAddIndex (x : Reg) (s : State) : Host.Outcome State Fault Refusal :=
  let sum := s.idx + wide (s.reg x)
  .next ((s.setIdx sum).setFlag (indexFlag sum)).advance

/-- index-to-sprite Vx (R192): I <- Vx * 5, all 8 bits of Vx. -/
def execIndexToSprite (x : Reg) (s : State) : Host.Outcome State Fault Refusal :=
  .next (s.setIdx (wide (s.reg x) * 5)).advance

/-- store-bcd Vx (R193): hundreds, tens, ones at I, I+1, I+2; I unchanged. -/
def execStoreBcd (x : Reg) (s : State) : Host.Outcome State Fault Refusal :=
  if inMemory s.idx 3 then .next (s.storeBytes s.dataAddr (bcdDigits (s.reg x))).advance
  else .next (s.raiseHalt .memoryBounds)

/-- store-regs Vx (R194): V[0] to V[x] from I on; I advances past the block, modulo 65536. -/
def execStoreRegs (x : Reg) (s : State) : Host.Outcome State Fault Refusal :=
  if inMemory s.idx (x.val + 1) then
    .next ((s.storeBytes s.dataAddr (s.regsUpTo x)).setIdx (s.idx + BitVec.ofNat 16 (x.val + 1))).advance
  else .next (s.raiseHalt .memoryBounds)

/-- load-regs Vx (R195): V[0] to V[x] from MEM[I] on; I advances past the block, modulo 65536. -/
def execLoadRegs (x : Reg) (s : State) : Host.Outcome State Fault Refusal :=
  if inMemory s.idx (x.val + 1) then
    .next ((s.loadRegsFrom s.dataAddr x).setIdx (s.idx + BitVec.ofNat 16 (x.val + 1))).advance
  else .next (s.raiseHalt .memoryBounds)

end Sys2Proof.Machine
end

