-- ==== Sys2Proof/Machine/TimersInput.lean ====
section
/-! DEFINITION. Timer and key instructions (45_timers_input.md R230 to R235). -/

namespace Sys2Proof.Machine

/-- get-delay Vx (R230). -/
def execGetDelay (x : Reg) (s : State) : Host.Outcome State Fault Refusal := .next (s.setReg x s.dt).advance

/-- set-delay Vx (R231). -/
def execSetDelay (x : Reg) (s : State) : Host.Outcome State Fault Refusal := .next (s.setDt (s.reg x)).advance

/-- set-sound Vx (R232). -/
def execSetSound (x : Reg) (s : State) : Host.Outcome State Fault Refusal := .next (s.setSt (s.reg x)).advance

/-- skip-key-pressed Vx (R233): the key is named by the content of Vx; above 15 the machine halts. -/
def execSkipKeyPressed (x : Reg) (s : State) : Host.Outcome State Fault Refusal :=
  match keyOf (s.reg x) with
  | none => .next (s.raiseHalt .keyIndexRange)
  | some k => .next (s.skipIf s.key[k])

/-- skip-key-not-pressed Vx (R234). -/
def execSkipKeyNotPressed (x : Reg) (s : State) : Host.Outcome State Fault Refusal :=
  match keyOf (s.reg x) with
  | none => .next (s.raiseHalt .keyIndexRange)
  | some k => .next (s.skipIf (!s.key[k]))

/-- wait-key Vx (R235): with no key down the step is Blocked and changes nothing; else the picked key's index goes to Vx.
Under WAITKEY_PICK = any the pick uses up a free value (log 4). -/
def execWaitKey (x : Reg) (s : State) : Host.Outcome State Fault Refusal :=
  match pressedKeys s.key with
  | [] => .next s.block
  | k :: ks =>
    let picked := pickKey s.params.waitKeyPick s.draws k ks
    let used := if s.params.waitKeyPick = .any then 1 else 0
    .next ((s.drawn used).setReg x (BitVec.ofNat 8 picked.val)).advance

end Sys2Proof.Machine
end

