-- ==== Sys2Proof/Syntax.lean ====
section
/-! DEFINITION. The 34 instructions (30_encoding.md R95 to R103), one constructor per row of opcode_table.json,
in the table's order. The operand fields are those of 00_scope.md R10: x, y register indices, n, nn, nnn unsigned
literals (R93). Bits an instruction ignores are no operand of it (R100). -/

namespace Sys2Proof

inductive Instr where
  /-- clear-screen, R210 -/
  | clearScreen
  /-- return, R141 -/
  | ret
  /-- jump nnn, R142 -/
  | jump (nnn : BitVec 12)
  /-- call nnn, R143 -/
  | call (nnn : BitVec 12)
  /-- skip-eq Vx,nn, R144 -/
  | skipEqImm (x : Reg) (nn : Byte)
  /-- skip-ne Vx,nn, R145 -/
  | skipNeImm (x : Reg) (nn : Byte)
  /-- skip-eq Vx,Vy, R146 -/
  | skipEqReg (x y : Reg)
  /-- set Vx,nn, R160 -/
  | setImm (x : Reg) (nn : Byte)
  /-- add Vx,nn, R161 -/
  | addImm (x : Reg) (nn : Byte)
  /-- set Vx,Vy, R162 -/
  | setReg (x y : Reg)
  /-- or Vx,Vy, R163 -/
  | orReg (x y : Reg)
  /-- and Vx,Vy, R164 -/
  | andReg (x y : Reg)
  /-- xor Vx,Vy, R165 -/
  | xorReg (x y : Reg)
  /-- add Vx,Vy, R166 -/
  | addReg (x y : Reg)
  /-- sub Vx,Vy, R167 -/
  | sub (x y : Reg)
  /-- shr Vx, R168 -/
  | shr (x : Reg)
  /-- subn Vx,Vy, R169 -/
  | subn (x y : Reg)
  /-- shl Vx, R170 -/
  | shl (x : Reg)
  /-- skip-ne Vx,Vy, R147 -/
  | skipNeReg (x y : Reg)
  /-- set-index nnn, R190 -/
  | setIndex (nnn : BitVec 12)
  /-- jump nnn+V0, R148 -/
  | jumpV0 (nnn : BitVec 12)
  /-- random Vx,nn, R171 -/
  | random (x : Reg) (nn : Byte)
  /-- draw Vx,Vy,n, R211 -/
  | draw (x y : Reg) (n : BitVec 4)
  /-- skip-key-pressed Vx, R233 -/
  | skipKeyPressed (x : Reg)
  /-- skip-key-not-pressed Vx, R234 -/
  | skipKeyNotPressed (x : Reg)
  /-- get-delay Vx, R230 -/
  | getDelay (x : Reg)
  /-- wait-key Vx, R235 -/
  | waitKey (x : Reg)
  /-- set-delay Vx, R231 -/
  | setDelay (x : Reg)
  /-- set-sound Vx, R232 -/
  | setSound (x : Reg)
  /-- add-index Vx, R191 -/
  | addIndex (x : Reg)
  /-- index-to-sprite Vx, R192 -/
  | indexToSprite (x : Reg)
  /-- store-bcd Vx, R193 -/
  | storeBcd (x : Reg)
  /-- store-regs Vx, R194 -/
  | storeRegs (x : Reg)
  /-- load-regs Vx, R195 -/
  | loadRegs (x : Reg)
  deriving DecidableEq, Repr

end Sys2Proof
end

