-- ==== Sys2Proof/WellFormed.lean ====
section
/-! DEFINITION. Well-formedness.

Every term of Instr is well formed by its type: x and y are Fin 16, n, nn and nnn are bit vectors of the field's width,
so an operand outside its field cannot be written (30_encoding.md R93). What can be ill formed is an instruction WORD:
it may be no defined instruction (R101), or hold a 1 in a bit its instruction ignores, which an assembler should not
emit (R100, R104). The two checks below say so, from the rows of spec/opcode_table.json. -/

namespace Sys2Proof

/-- A row of the opcode table: the word under `mask` is `pattern`; `dontCare` are the bits that are neither under the
mask nor in a field (R100). -/
structure OpcodeRow where
  mnemonic : String
  pattern : Word
  mask : Word
  dontCare : Word
  deriving DecidableEq, Repr

/-- The row of the opcode table an instruction belongs to (R95 to R100). -/
def Instr.row : Instr → OpcodeRow
  | .clearScreen => ⟨"clear-screen", 0x00E0, 0xF0FF, 0x0F00⟩
  | .ret => ⟨"return", 0x00EE, 0xF0FF, 0x0F00⟩
  | .jump _ => ⟨"jump", 0x1000, 0xF000, 0⟩
  | .call _ => ⟨"call", 0x2000, 0xF000, 0⟩
  | .skipEqImm _ _ => ⟨"skip-eq-imm", 0x3000, 0xF000, 0⟩
  | .skipNeImm _ _ => ⟨"skip-ne-imm", 0x4000, 0xF000, 0⟩
  | .skipEqReg _ _ => ⟨"skip-eq-reg", 0x5000, 0xF000, 0x000F⟩
  | .setImm _ _ => ⟨"set-imm", 0x6000, 0xF000, 0⟩
  | .addImm _ _ => ⟨"add-imm", 0x7000, 0xF000, 0⟩
  | .setReg _ _ => ⟨"set-reg", 0x8000, 0xF00F, 0⟩
  | .orReg _ _ => ⟨"or", 0x8001, 0xF00F, 0⟩
  | .andReg _ _ => ⟨"and", 0x8002, 0xF00F, 0⟩
  | .xorReg _ _ => ⟨"xor", 0x8003, 0xF00F, 0⟩
  | .addReg _ _ => ⟨"add-reg", 0x8004, 0xF00F, 0⟩
  | .sub _ _ => ⟨"sub", 0x8005, 0xF00F, 0⟩
  | .shr _ => ⟨"shr", 0x8006, 0xF00F, 0x00F0⟩
  | .subn _ _ => ⟨"subn", 0x8007, 0xF00F, 0⟩
  | .shl _ => ⟨"shl", 0x800E, 0xF00F, 0x00F0⟩
  | .skipNeReg _ _ => ⟨"skip-ne-reg", 0x9000, 0xF000, 0x000F⟩
  | .setIndex _ => ⟨"set-index", 0xA000, 0xF000, 0⟩
  | .jumpV0 _ => ⟨"jump-v0", 0xB000, 0xF000, 0⟩
  | .random _ _ => ⟨"random", 0xC000, 0xF000, 0⟩
  | .draw _ _ _ => ⟨"draw", 0xD000, 0xF000, 0⟩
  | .skipKeyPressed _ => ⟨"skip-key-pressed", 0xE09E, 0xF0FF, 0⟩
  | .skipKeyNotPressed _ => ⟨"skip-key-not-pressed", 0xE0A1, 0xF0FF, 0⟩
  | .getDelay _ => ⟨"get-delay", 0xF007, 0xF0FF, 0⟩
  | .waitKey _ => ⟨"wait-key", 0xF00A, 0xF0FF, 0⟩
  | .setDelay _ => ⟨"set-delay", 0xF015, 0xF0FF, 0⟩
  | .setSound _ => ⟨"set-sound", 0xF018, 0xF0FF, 0⟩
  | .addIndex _ => ⟨"add-index", 0xF01E, 0xF0FF, 0⟩
  | .indexToSprite _ => ⟨"index-to-sprite", 0xF029, 0xF0FF, 0⟩
  | .storeBcd _ => ⟨"store-bcd", 0xF033, 0xF0FF, 0⟩
  | .storeRegs _ => ⟨"store-regs", 0xF055, 0xF0FF, 0⟩
  | .loadRegs _ => ⟨"load-regs", 0xF065, 0xF0FF, 0⟩

/-- The opcode table, in its own order: the row of each instruction (its operands do not matter to the row). -/
def opcodeTable : List OpcodeRow :=
  [Instr.clearScreen, .ret, .jump 0, .call 0, .skipEqImm 0 0, .skipNeImm 0 0, .skipEqReg 0 0, .setImm 0 0,
   .addImm 0 0, .setReg 0 0, .orReg 0 0, .andReg 0 0, .xorReg 0 0, .addReg 0 0, .sub 0 0, .shr 0, .subn 0 0,
   .shl 0, .skipNeReg 0 0, .setIndex 0, .jumpV0 0, .random 0 0, .draw 0 0 0, .skipKeyPressed 0,
   .skipKeyNotPressed 0, .getDelay 0, .waitKey 0, .setDelay 0, .setSound 0, .addIndex 0, .indexToSprite 0,
   .storeBcd 0, .storeRegs 0, .loadRegs 0].map Instr.row

/-- The word lies in the row: its bits under the mask are the pattern. -/
def OpcodeRow.holds (r : OpcodeRow) (w : Word) : Bool := w &&& r.mask == r.pattern

/-- First check: the word is some defined instruction (R101). -/
def wordDefined (w : Word) : Bool := opcodeTable.any (·.holds w)

/-- Second check: every don't-care bit of the word's row is 0 (R100, R104). -/
def wordClean (w : Word) : Bool := opcodeTable.all fun r => !r.holds w || w &&& r.dontCare == 0

/-- A well-formed instruction word: a defined one, as an assembler emits it. -/
def wordWellFormed (w : Word) : Bool := wordDefined w && wordClean w

end Sys2Proof
end

