-- ==== Sys2Proof/Decode.lean ====
section
/-! DEFINITION. The decoder (30_encoding.md R90 to R101), total on any bytes, and after it the encoder (R104). -/

namespace Sys2Proof

/-- Why bytes are no instruction. `unknownN` names the primary group whose secondary selector has no defined value
(R101); only these four groups can be undecodable (R94). -/
inductive DecodeError where
  /-- fewer than the two bytes of an instruction (R90) -/
  | tooShort
  | unknown0
  | unknown8
  | unknownE
  | unknownF
  deriving DecidableEq, Repr

/-- The primary group w[15:12] (R10). -/
def groupOf (w : Word) : BitVec 4 := w.extractLsb' 12 4

/-- Field x = w[11:8] (R10). -/
def fieldX (w : Word) : Reg := (w.extractLsb' 8 4).toFin

/-- Field y = w[7:4] (R10). -/
def fieldY (w : Word) : Reg := (w.extractLsb' 4 4).toFin

/-- Field n = w[3:0] (R10). -/
def fieldN (w : Word) : BitVec 4 := w.extractLsb' 0 4

/-- Field nn = w[7:0] (R10). -/
def fieldNN (w : Word) : Byte := w.extractLsb' 0 8

/-- Field nnn = w[11:0] (R10). -/
def fieldNNN (w : Word) : BitVec 12 := w.extractLsb' 0 12

/-- Group 0x0, selector w[7:0] (R96). -/
def decodeGroup0 (w : Word) : Except DecodeError Instr :=
  match (fieldNN w).toNat with
  | 0xE0 => .ok .clearScreen
  | 0xEE => .ok .ret
  | _ => .error .unknown0

/-- Group 0x8, selector w[3:0] (R97). -/
def decodeGroup8 (w : Word) : Except DecodeError Instr :=
  match (fieldN w).toNat with
  | 0x0 => .ok (.setReg (fieldX w) (fieldY w))
  | 0x1 => .ok (.orReg (fieldX w) (fieldY w))
  | 0x2 => .ok (.andReg (fieldX w) (fieldY w))
  | 0x3 => .ok (.xorReg (fieldX w) (fieldY w))
  | 0x4 => .ok (.addReg (fieldX w) (fieldY w))
  | 0x5 => .ok (.sub (fieldX w) (fieldY w))
  | 0x6 => .ok (.shr (fieldX w))
  | 0x7 => .ok (.subn (fieldX w) (fieldY w))
  | 0xE => .ok (.shl (fieldX w))
  | _ => .error .unknown8

/-- Group 0xE, selector w[7:0] (R98). -/
def decodeGroupE (w : Word) : Except DecodeError Instr :=
  match (fieldNN w).toNat with
  | 0x9E => .ok (.skipKeyPressed (fieldX w))
  | 0xA1 => .ok (.skipKeyNotPressed (fieldX w))
  | _ => .error .unknownE

/-- Group 0xF, selector w[7:0] (R99). -/
def decodeGroupF (w : Word) : Except DecodeError Instr :=
  match (fieldNN w).toNat with
  | 0x07 => .ok (.getDelay (fieldX w))
  | 0x0A => .ok (.waitKey (fieldX w))
  | 0x15 => .ok (.setDelay (fieldX w))
  | 0x18 => .ok (.setSound (fieldX w))
  | 0x1E => .ok (.addIndex (fieldX w))
  | 0x29 => .ok (.indexToSprite (fieldX w))
  | 0x33 => .ok (.storeBcd (fieldX w))
  | 0x55 => .ok (.storeRegs (fieldX w))
  | 0x65 => .ok (.loadRegs (fieldX w))
  | _ => .error .unknownF

/-- Decode of one word: dispatch on the high nibble into 16 primary groups, then the secondary dispatch of groups
0x0, 0x8, 0xE and 0xF (R94, R95). It reads nothing but the word (40_step_cycle.md R123). -/
def decodeWord (w : Word) : Except DecodeError Instr :=
  match (groupOf w).toNat with
  | 0x0 => decodeGroup0 w
  | 0x1 => .ok (.jump (fieldNNN w))
  | 0x2 => .ok (.call (fieldNNN w))
  | 0x3 => .ok (.skipEqImm (fieldX w) (fieldNN w))
  | 0x4 => .ok (.skipNeImm (fieldX w) (fieldNN w))
  | 0x5 => .ok (.skipEqReg (fieldX w) (fieldY w))
  | 0x6 => .ok (.setImm (fieldX w) (fieldNN w))
  | 0x7 => .ok (.addImm (fieldX w) (fieldNN w))
  | 0x8 => decodeGroup8 w
  | 0x9 => .ok (.skipNeReg (fieldX w) (fieldY w))
  | 0xA => .ok (.setIndex (fieldNNN w))
  | 0xB => .ok (.jumpV0 (fieldNNN w))
  | 0xC => .ok (.random (fieldX w) (fieldNN w))
  | 0xD => .ok (.draw (fieldX w) (fieldY w) (fieldN w))
  | 0xE => decodeGroupE w
  | _ => decodeGroupF w

/-- Two bytes make a word big-endian: the byte at the lower address is bits 15 to 8 (20_memory.md R65). -/
def wordOfBytes (hi lo : Byte) : Word := hi ++ lo

/-- The first instruction of a byte sequence, with the bytes that follow it (R90: every instruction is 2 bytes). -/
def decode : List Byte → Except DecodeError (Instr × List Byte)
  | hi :: lo :: rest => (decodeWord (wordOfBytes hi lo)).map fun i => (i, rest)
  | _ => .error .tooShort

/-- Format XNN, and XSS with the selector in the place of nn (R92). -/
def encodeXNN (group : BitVec 4) (x : Reg) (nn : Byte) : Word := group ++ BitVec.ofFin (w := 4) x ++ nn

/-- Formats XY, XYS and XYN: n is the literal, the selector or, in XY, 0 (R92, R104). -/
def encodeXYN (group : BitVec 4) (x y : Reg) (n : BitVec 4) : Word :=
  group ++ BitVec.ofFin (w := 4) x ++ BitVec.ofFin (w := 4) y ++ n

/-- Format NNN (R92). -/
def encodeNNN (group : BitVec 4) (nnn : BitVec 12) : Word := group ++ nnn

/-- The word of an instruction: its pattern, its fields, and 0 in every don't-care bit (R104). -/
def encodeWord : Instr → Word
  | .clearScreen => encodeXNN 0x0 0 0xE0
  | .ret => encodeXNN 0x0 0 0xEE
  | .jump nnn => encodeNNN 0x1 nnn
  | .call nnn => encodeNNN 0x2 nnn
  | .skipEqImm x nn => encodeXNN 0x3 x nn
  | .skipNeImm x nn => encodeXNN 0x4 x nn
  | .skipEqReg x y => encodeXYN 0x5 x y 0x0
  | .setImm x nn => encodeXNN 0x6 x nn
  | .addImm x nn => encodeXNN 0x7 x nn
  | .setReg x y => encodeXYN 0x8 x y 0x0
  | .orReg x y => encodeXYN 0x8 x y 0x1
  | .andReg x y => encodeXYN 0x8 x y 0x2
  | .xorReg x y => encodeXYN 0x8 x y 0x3
  | .addReg x y => encodeXYN 0x8 x y 0x4
  | .sub x y => encodeXYN 0x8 x y 0x5
  | .shr x => encodeXYN 0x8 x 0 0x6
  | .subn x y => encodeXYN 0x8 x y 0x7
  | .shl x => encodeXYN 0x8 x 0 0xE
  | .skipNeReg x y => encodeXYN 0x9 x y 0x0
  | .setIndex nnn => encodeNNN 0xA nnn
  | .jumpV0 nnn => encodeNNN 0xB nnn
  | .random x nn => encodeXNN 0xC x nn
  | .draw x y n => encodeXYN 0xD x y n
  | .skipKeyPressed x => encodeXNN 0xE x 0x9E
  | .skipKeyNotPressed x => encodeXNN 0xE x 0xA1
  | .getDelay x => encodeXNN 0xF x 0x07
  | .waitKey x => encodeXNN 0xF x 0x0A
  | .setDelay x => encodeXNN 0xF x 0x15
  | .setSound x => encodeXNN 0xF x 0x18
  | .addIndex x => encodeXNN 0xF x 0x1E
  | .indexToSprite x => encodeXNN 0xF x 0x29
  | .storeBcd x => encodeXNN 0xF x 0x33
  | .storeRegs x => encodeXNN 0xF x 0x55
  | .loadRegs x => encodeXNN 0xF x 0x65

/-- The two bytes of a word as memory holds them, high byte first (20_memory.md R65). -/
def bytesOfWord (w : Word) : List Byte := [w.extractLsb' 8 8, w.extractLsb' 0 8]

/-- The bytes of an instruction (R104: the high byte at the lower address). -/
def encode (i : Instr) : List Byte := bytesOfWord (encodeWord i)

/-- The word whose bits are w, numbered as the opcode table numbers them, every bit from nbits up being 0. -/
def tableWord (nbits w : Nat) : Word := BitVec.ofNat 16 (w % 2 ^ nbits)

/-- What the decoder reads from the bytes of a table word. -/
def decodeTableWord (nbits w : Nat) : Option Instr :=
  match decode (bytesOfWord (tableWord nbits w)) with
  | .ok (i, _) => some i
  | .error _ => none

end Sys2Proof
end

