-- ==== Sys2Proof/Machine/Fetch.lean ====
section
/-! DEFINITION. What a step does before it executes: the HALTED check, the fetch bounds, the fetch, the decode and the
unknown instruction (40_step_cycle.md R120 to R123, 60_exceptions.md R254, R255). -/

namespace Sys2Proof.Machine

/-- What comes of fetch and decode. -/
inductive Fetched where
  /-- the step ends here, with this state -/
  | stop (s : State)
  /-- this instruction is executed -/
  | run (i : Instr)
  deriving DecidableEq, Repr

/-- PC and PC + 1 are in memory (20_memory.md R67). -/
def State.fetchable (s : State) : Bool := decide (s.pc.toNat ≤ 0xFFE)

/-- The two bytes at PC, the byte at PC first (R122). -/
def State.fetchBytes (s : State) : List Byte := [Memory.read s.mem s.pc.toNat, Memory.read s.mem (s.pc.toNat + 1)]

/-- The word those bytes make: MEM[PC] * 256 + MEM[PC+1] (20_memory.md R65). -/
def State.fetchWord (s : State) : Word :=
  wordOfBytes (Memory.read s.mem s.pc.toNat) (Memory.read s.mem (s.pc.toNat + 1))

/-- HALTED first, then FetchBounds, then the decode; an unknown word ends the step by UNKNOWN_POLICY (R120, R255). -/
def fetch (s : State) : Fetched :=
  if s.ctl = .halted then .stop s.stayHalted
  else if s.fetchable then
    match decode s.fetchBytes with
    | .ok (i, _) => .run i
    | .error _ => .stop (s.unknown s.fetchWord)
  else .stop (s.raiseHalt .fetchBounds)

/-- The state made ready to fetch: a machine that can fetch is left as it is; a HALTED one is READY again, and a PC
outside memory is the reset value (log 9). -/
def State.readyToFetch (s : State) : State :=
  let t := if s.ctl = .halted then { s with ctl := .ready, cause := none } else s
  if t.fetchable then t else { t with pc := 0x200 }

/-- The bytes of a word stored at PC. -/
def State.placeWord (s : State) (w : Word) : State :=
  { s with mem := Memory.writeBytes s.mem s.pc.toNat (bytesOfWord w) }

end Sys2Proof.Machine
end

