-- ==== Sys2Proof/Machine/Step.lean ====
section
/-! DEFINITION. The `step` event: one fetch-decode-execute (40_step_cycle.md R120). -/

namespace Sys2Proof.Machine

/-- One step. Its report to the caller (R125) is the next state's `lastOutcome`. -/
def step (s : State) : Host.Outcome State Fault Refusal :=
  match fetch s with
  | .stop t => .next t
  | .run i => exec i s

/-- The state with an instruction of the opcode table stored where step fetches its next instruction (log 9). -/
def State.withFetchWord (s : State) (nbits w : Nat) : State := s.readyToFetch.placeWord (tableWord nbits w)

end Sys2Proof.Machine
end

