-- ==== Sys2Proof/Machine/Events.lean ====
section
/-! DEFINITION. The event interface beside `step` (00_scope.md R8, 60_exceptions.md R262 to R273, 70_reset_and_hazards.md
R290 to R298): reset, load, tick, key_set, redraw_ack and the read-out. Each is atomic and accepted in every control
state. -/

namespace Sys2Proof.Machine

/-- What `load` reports to its caller (70_reset_and_hazards.md R296); it is not a halt. -/
inductive LoadResult where
  | loaded
  | imageTooLarge
  deriving DecidableEq, Repr

/-- The precondition of load: origin at most 4096 and the image at most 4096 - origin bytes (R296, D24). -/
def imageFits (bytes : List Byte) (origin : Nat) : Bool :=
  decide (origin ≤ 4096) && decide (bytes.length ≤ 4096 - origin)

/-- The program origin, `load`'s default (00_scope.md R5). -/
def defaultOrigin : Nat := 0x200

/-- `load`: all or nothing; it writes the named bytes of MEM and nothing else (R296, R297). -/
def State.load (s : State) (bytes : List Byte) (origin : Nat) : LoadResult × State :=
  if imageFits bytes origin then (.loaded, s.storeBytes origin bytes) else (.imageTooLarge, s)

/-- One countdown, stopping at 0 (60_exceptions.md R262). -/
def countDown (b : Byte) : Byte := if b = 0 then 0 else b - 1

/-- `tick`: one countdown of both timers, in every control state (R262). -/
def State.tick (s : State) : State := { s with dt := countDown s.dt, st := countDown s.st }

/-- `key_set(k, b)` (R265). -/
def State.keySet (s : State) (k : Key) (b : Bool) : State := { s with key := s.key.set k b }

/-- `redraw_ack` (R269). -/
def State.redrawAck (s : State) : State := { s with rd := false }

/-- What the collaborators may observe (R268). -/
structure ReadOut where
  fb : FrameBuffer
  rd : Bool
  dt : Byte
  st : Byte
  ctl : Ctl
  cause : Option HaltCause
  deriving DecidableEq, Repr

/-- The read-out: pure observation (R268). -/
def State.readOut (s : State) : ReadOut := ⟨s.fb, s.rd, s.dt, s.st, s.ctl, s.cause⟩

/-- The code of CAUSE, 0 to 6 (10_state.md R41). -/
def causeCode : Option HaltCause → Nat
  | none => 0
  | some .unknownInstruction => 1
  | some .fetchBounds => 2
  | some .stackOverflow => 3
  | some .stackUnderflow => 4
  | some .memoryBounds => 5
  | some .keyIndexRange => 6

/-- The events that change state, and no other: the host has no move this list lacks (00_scope.md R8, R273). -/
inductive Event where
  | reset
  | load (bytes : List Byte) (origin : Nat)
  | step
  | tick
  | keySet (k : Key) (b : Bool)
  | redrawAck
  deriving DecidableEq, Repr

/-- The effect of one event. -/
def applyEvent (e : Event) (s : State) : Host.Outcome State Fault Refusal :=
  match e with
  | .reset => .next s.doReset
  | .load bytes origin => .next (s.load bytes origin).2
  | .step => step s
  | .tick => .next s.tick
  | .keySet k b => .next (s.keySet k b)
  | .redrawAck => .next s.redrawAck

/-- A sequence of events, in the order they were issued (D20: events are serialised). -/
def applyEvents : List Event → State → Host.Outcome State Fault Refusal
  | [], s => .next s
  | e :: es, s =>
    match applyEvent e s with
    | .next t => applyEvents es t
    | .fault r => .fault r
    | .refused r => .refused r

end Sys2Proof.Machine
end

