-- ==== Sys2Proof/Safety.lean ====
section
/-! DEFINITION. What claims about runs are stated in: the machine's invariant, the end of a run, and what a safe run has
not met (93_implementation_defined.md: no halt, no unknown instruction skipped). -/

namespace Sys2Proof.Machine

/-- CAUSE is None exactly when CTL is not HALTED (10_state.md R41). -/
def State.causeMatchesCtl (s : State) : Prop := s.ctl = .halted ↔ s.cause ≠ none

/-- The invariant of the machine: memory in canonical form, and CAUSE in step with CTL. -/
def State.Inv (s : State) : Prop := Memory.wf s.mem = true ∧ s.causeMatchesCtl

/-- No halt has occurred (60_exceptions.md R251: a claim about a program carries this). -/
def State.notHalted (s : State) : Prop := s.ctl ≠ .halted

/-- The last step skipped no unknown instruction (60_exceptions.md R254). -/
def State.skippedNothing (s : State) : Prop := ∀ w a, s.lastOutcome ≠ some (.unknownSkipped w a)

/-- A state of a safe run: no halt, and the step before it executed a defined instruction. -/
def State.Safe (s : State) : Prop := s.notHalted ∧ s.skippedNothing

/-- The end of a run: PC addresses a jump whose nnn equals PC (40_step_cycle.md R129). -/
def State.atSelfJump (s : State) : Prop :=
  s.ctl ≠ .halted ∧ s.pc.toNat ≤ 0xFFE ∧ decodeWord s.fetchWord = .ok (.jump (s.pc.setWidth 12))

end Sys2Proof.Machine
end

