-- ==== Sys2Proof/Certificates/Slice0/Obligations.lean ====
section
/-! DEFINITION. The statements for the provers, from the numbered rules of spec/.

What an instruction does is stated as `Completes i s { s with ... }`: exec answers a next state, the record update names
what the instruction writes, and everything it does not name is unchanged (the frame). A completed instruction also sets
CTL to READY (40_step_cycle.md R120). `Halts i s c` says that it halts and changes nothing else. Both leave open what the
step reports, since the place of the report, `lastOutcome`, is the model's own (log 1); `OutcomeMatchesControl` says what
it is. An Encoding line of the spec is stated by `Encoded`: every word with that pattern under that mask decodes to that
instruction with these operands. The numbers in it are the spec's general knowledge (92_eei_decisions.md D1, log 11). A
docstring names the decision D<n> of 92_eei_decisions.md that a clause rests on. -/

namespace Sys2Proof.Claims

open Sys2Proof Sys2Proof.Machine

/-- Every word that has the pattern under the mask decodes to the instruction made of its fields. -/
def Encoded (pattern mask : Word) (mk : Word → Instr) : Prop :=
  ∀ w : Word, w &&& mask = pattern → decodeWord w = .ok (mk w)

/-- The fields of a word as numbers (00_scope.md R10). -/
def xOf (w : Word) : Reg := Fin.ofNat 16 (w.toNat / 256)
def yOf (w : Word) : Reg := Fin.ofNat 16 (w.toNat / 16)
def nOf (w : Word) : BitVec 4 := BitVec.ofNat 4 w.toNat
def nnOf (w : Word) : Byte := BitVec.ofNat 8 w.toNat
def nnnOf (w : Word) : BitVec 12 := BitVec.ofNat 12 w.toNat

/-- The state after raise Halt(c): only CTL and CAUSE change, and Halted(c) is reported (60_exceptions.md R252). -/
def haltedBy (s : State) (c : HaltCause) : State :=
  { s with ctl := .halted, cause := some c, lastOutcome := some (.halted (some c)) }

/-- exec answers t, but for CTL, which is READY, and the report. -/
def Completes (i : Instr) (s t : State) : Prop :=
  ∃ report, exec i s = .next { t with ctl := .ready, lastOutcome := report }

/-- exec raises Halt(c): it answers s, but for CTL, CAUSE and the report (60_exceptions.md R252, D5). -/
def Halts (i : Instr) (s : State) (c : HaltCause) : Prop :=
  ∃ report, exec i s = .next { s with ctl := .halted, cause := some c, lastOutcome := report }

/-- The instruction completes sequentially, the general registers become `f`, and nothing else changes
but CTL and the report. -/
def RegistersBecome (i : Instr) (s : State) (f : Reg → Byte) : Prop :=
  ∃ v' : Vector Byte 16, Completes i s { s with v := v', pc := s.pc + 2 } ∧ ∀ k : Reg, v'[k] = f k

/-- The instruction is a skip with this condition: PC + 4 if it is true, else PC + 2, and nothing else changes. -/
def SkipsIf (i : Instr) (s : State) (c : Prop) [Decidable c] : Prop :=
  Completes i s { s with pc := if c then s.pc + 4 else s.pc + 2 }

/-- The cell lies under a 1 bit of the sprite that draw Vx,Vy,n draws in s: row r, column c, bit 7 - c of MEM[I + r],
placed by DRAW_EDGE (44_graphics.md R211, R212). -/
def SpriteCovers (s : State) (x y : Reg) (n : BitVec 4) (cell : Cell) : Prop :=
  ∃ r c : Nat, r < n.toNat ∧ c < 8 ∧ (Memory.read s.mem (s.idx.toNat + r)).getLsbD (7 - c) = true ∧
    match s.params.drawEdge with
    | .wrap => cell.1.val = (s.v[x].toNat + c) % 64 ∧ cell.2.val = (s.v[y].toNat + r) % 32
    | .clip => cell.1.val = s.v[x].toNat + c ∧ cell.2.val = s.v[y].toNat + r

/-- The sprite of draw Vx,Vy,n lies in memory, or has no row (20_memory.md R66). -/
def SpriteInMemory (s : State) (n : BitVec 4) : Prop := n.toNat = 0 ∨ s.idx.toNat + n.toNat - 1 ≤ 0xFFF

end Sys2Proof.Claims

open Sys2Proof Sys2Proof.Machine Sys2Proof.Claims

/-! ### Encoding -/

/-- Decoding an encoded instruction gives it back, with the bytes that follow it (30_encoding.md R91, R104). -/
def Obligations.DecodeOfEncode : Prop :=
  ∀ (i : Instr) (rest : List Byte), decode (encode i ++ rest) = .ok (i, rest)

/-- A word decodes exactly when it lies in a row of the opcode table, and then to that row's instruction; so no word
lies in two rows of different instructions (R95 to R99, R101). -/
def Obligations.DecodeMatchesOpcodeTable : Prop :=
  ∀ w : Word,
    (∀ i, decodeWord w = .ok i → i.row.holds w = true) ∧
    (∀ r ∈ opcodeTable, r.holds w = true → ∃ i, decodeWord w = .ok i ∧ i.row = r)

/-- Two words that differ only in their instruction's don't-care bits decode to the same instruction (R100). -/
def Obligations.DontCareBitsDoNotMatter : Prop :=
  ∀ (w w' : Word) (i : Instr), decodeWord w = .ok i → (w ^^^ w') &&& ~~~ i.row.dontCare = 0 → decodeWord w' = .ok i

/-- The words an assembler should emit (R104) are exactly the encodings of the instructions. -/
def Obligations.WellFormedWordsAreEncodings : Prop :=
  ∀ w : Word, wordWellFormed w = true ↔ ∃ i, encodeWord i = w

/-- The unknown words, by group and secondary selector (R101 with R96 to R99): every word of the other groups is
defined. -/
def Obligations.UnknownWordsBySelector : Prop :=
  ∀ w : Word, (∃ e, decodeWord w = .error e) ↔
    (w.toNat / 4096 = 0x0 ∧ w.toNat % 256 ∉ [0xE0, 0xEE]) ∨
    (w.toNat / 4096 = 0x8 ∧ w.toNat % 16 ∉ [0x0, 0x1, 0x2, 0x3, 0x4, 0x5, 0x6, 0x7, 0xE]) ∨
    (w.toNat / 4096 = 0xE ∧ w.toNat % 256 ∉ [0x9E, 0xA1]) ∨
    (w.toNat / 4096 = 0xF ∧ w.toNat % 256 ∉ [0x07, 0x0A, 0x15, 0x18, 0x1E, 0x29, 0x33, 0x55, 0x65])

/-- Words written out from the encoding tables, one or two of each family (95_test_vectors.md T1 to T6). -/
def Obligations.SampleWordsDecode : Prop :=
  decode [0x12, 0x34] = .ok (.jump 0x234, []) ∧
  decode [0x07, 0xEE] = .ok (.ret, []) ∧
  decode [0x33, 0x2A] = .ok (.skipEqImm 3 0x2A, []) ∧
  decode [0x81, 0x24] = .ok (.addReg 1 2, []) ∧
  decode [0xC4, 0x0F] = .ok (.random 4 0x0F, []) ∧
  decode [0xA2, 0xF0] = .ok (.setIndex 0x2F0, []) ∧
  decode [0xF1, 0x55] = .ok (.storeRegs 1, []) ∧
  decode [0xD1, 0x25] = .ok (.draw 1 2 5, []) ∧
  decode [0xE2, 0xA1] = .ok (.skipKeyNotPressed 2, []) ∧
  decode [0xF5, 0x0A] = .ok (.waitKey 5, []) ∧
  decode [0x00, 0x00] = .error .unknown0

/-! ### The step -/

/-- A step runs the decoded instruction: when the machine is not HALTED and PC is at most 0xFFE, the word fetched is
MEM[PC] * 256 + MEM[PC+1], and if it decodes to i the step is exec of i on the same state (R120, R122). -/
def Obligations.StepRunsDecodedInstruction : Prop :=
  ∀ (s : State) (w : Word) (i : Instr), s.ctl ≠ .halted → s.pc.toNat ≤ 0xFFE →
    w.toNat = (Memory.read s.mem s.pc.toNat).toNat * 256 + (Memory.read s.mem (s.pc.toNat + 1)).toNat →
    decodeWord w = .ok i → step s = exec i s

/-- A step when HALTED changes no state and reports Halted(CAUSE); the report is kept in `lastOutcome` (R121, D25,
log 1). -/
def Obligations.HaltedStepChangesNothing : Prop :=
  ∀ s : State, s.ctl = .halted → step s = .next { s with lastOutcome := some (.halted s.cause) }

/-- A step with PC > 0xFFE halts FetchBounds and executes nothing; PC = 0xFFE is legal (R67, D10; the report,
log 1). -/
def Obligations.FetchOutsideMemoryHalts : Prop :=
  ∀ s : State, s.ctl ≠ .halted →
    (s.pc.toNat > 0xFFE → step s = .next (haltedBy s .fetchBounds)) ∧
    (s.pc.toNat = 0xFFE → ∀ w : Word, w.toNat = (Memory.read s.mem 0xFFE).toNat * 256 + (Memory.read s.mem 0xFFF).toNat →
      ∀ i, decodeWord w = .ok i → step s = exec i s)

/-- An unknown instruction: under skip the word and its address are reported and PC advances by 2; under halt the
machine halts with PC unchanged (R254, D4; the report, log 1). -/
def Obligations.UnknownInstructionByPolicy : Prop :=
  ∀ (s : State) (w : Word) (e : DecodeError), s.ctl ≠ .halted → s.pc.toNat ≤ 0xFFE →
    w.toNat = (Memory.read s.mem s.pc.toNat).toNat * 256 + (Memory.read s.mem (s.pc.toNat + 1)).toNat →
    decodeWord w = .error e →
    step s = .next (match s.params.unknownPolicy with
      | .skip => { s with pc := s.pc + 2, ctl := .ready, lastOutcome := some (.unknownSkipped w s.pc) }
      | .halt => haltedBy s .unknownInstruction)

/-- Every step answers a next state: no state of the machine, reachable or not, stops the model. -/
def Obligations.EveryStepAnswersNext : Prop := ∀ s : State, ∃ t, step s = .next t

/-- The outcome table of R125: what each outcome says of CTL and PC, and that a step reports one of the four (D5;
the report is kept in `lastOutcome`, log 1). -/
def Obligations.OutcomeMatchesControl : Prop :=
  ∀ s t : State, step s = .next t →
    (t.lastOutcome = some .executed ∧ t.ctl = .ready ∧
      ∃ i, decodeWord s.fetchWord = .ok i ∧ exec i s = .next t) ∨
    (t.lastOutcome = some .blocked ∧ t.ctl = .awaitKey ∧ t.pc = s.pc) ∨
    (t.lastOutcome = some (.unknownSkipped s.fetchWord s.pc) ∧ t.ctl = .ready ∧ t.pc = s.pc + 2 ∧
      ∃ e, decodeWord s.fetchWord = .error e) ∨
    (t.lastOutcome = some (.halted t.cause) ∧ t.ctl = .halted ∧ t.pc = s.pc)

/-- Halts are precise: a step that takes the machine into HALTED leaves exactly the state before it but for CTL, CAUSE
and the report (R252, D5, log 1). -/
def Obligations.HaltsArePrecise : Prop :=
  ∀ s t : State, s.ctl ≠ .halted → step s = .next t → t.ctl = .halted → ∃ c, t = haltedBy s c

/-- Which instruction can halt with which cause, and exactly when (R253, D5; the report, log 1). -/
def Obligations.HaltCausesByInstruction : Prop :=
  ∀ (i : Instr) (s : State) (c : HaltCause), exec i s = .next (haltedBy s c) ↔
    (c = .stackOverflow ∧ (∃ nnn, i = .call nnn) ∧ s.sp.val = 16) ∨
    (c = .stackUnderflow ∧ i = .ret ∧ s.sp.val = 0) ∨
    (c = .memoryBounds ∧
      ((∃ x y n, i = .draw x y n ∧ n.toNat ≥ 1 ∧ s.idx.toNat + n.toNat - 1 > 0xFFF) ∨
       (∃ x, i = .storeBcd x ∧ s.idx.toNat + 2 > 0xFFF) ∨
       (∃ x, (i = .storeRegs x ∨ i = .loadRegs x) ∧ s.idx.toNat + x.val > 0xFFF))) ∨
    (c = .keyIndexRange ∧ (∃ x, (i = .skipKeyPressed x ∨ i = .skipKeyNotPressed x) ∧ s.v[x].toNat > 15))

/-- Only wait-key suspends: a step ends in AWAIT_KEY only when the instruction at PC is wait-key and no key is down, and
then nothing changes but CTL and the report (R126, D26, log 1). -/
def Obligations.OnlyWaitKeyBlocks : Prop :=
  ∀ s t : State, step s = .next t → t.ctl = .awaitKey →
    t = { s with ctl := .awaitKey, lastOutcome := some .blocked } ∧
    (∃ x, decodeWord s.fetchWord = .ok (.waitKey x)) ∧ ∀ k : Key, s.key[k] = false

/-- What a step does not do: it leaves KEY and the parameters, never clears RD, and writes DT only by set-delay and ST
only by set-sound (R128). -/
def Obligations.StepLeavesTimersKeysRedraw : Prop :=
  ∀ s t : State, step s = .next t →
    t.key = s.key ∧ t.params = s.params ∧ (s.rd = true → t.rd = true) ∧
    (t.dt ≠ s.dt → ∃ x, decodeWord s.fetchWord = .ok (.setDelay x) ∧ t.dt = s.v[x]) ∧
    (t.st ≠ s.st → ∃ x, decodeWord s.fetchWord = .ok (.setSound x) ∧ t.st = s.v[x])

/-- The complete list of what an instruction can do to PC (R24). -/
def Obligations.PcAfterInstruction : Prop :=
  ∀ (i : Instr) (s t : State), exec i s = .next t →
    match i with
    | .jump nnn => t.pc.toNat = nnn.toNat
    | .call nnn => if s.sp.val = 16 then t.pc = s.pc else t.pc.toNat = nnn.toNat
    | .jumpV0 nnn => t.pc.toNat = nnn.toNat + s.v[0].toNat
    | .ret => (s.sp.val = 0 ∧ t.pc = s.pc) ∨ ∃ j : Fin 16, s.sp.val = j.val + 1 ∧ t.pc = s.stack[j] + 2
    | .skipEqImm _ _ | .skipNeImm _ _ | .skipEqReg _ _ | .skipNeReg _ _ => t.pc = s.pc + 4 ∨ t.pc = s.pc + 2
    | .skipKeyPressed _ | .skipKeyNotPressed _ =>
        t.pc = s.pc + 4 ∨ t.pc = s.pc + 2 ∨ (t.ctl = .halted ∧ t.pc = s.pc)
    | .waitKey _ => t.pc = s.pc + 2 ∨ (t.ctl = .awaitKey ∧ t.pc = s.pc)
    | .draw _ _ _ | .storeBcd _ | .storeRegs _ | .loadRegs _ => t.pc = s.pc + 2 ∨ (t.ctl = .halted ∧ t.pc = s.pc)
    | _ => t.pc = s.pc + 2

/-- Which instructions can change V[15]: the seven flag writers, and those whose destination is V[15] (R27). -/
def Obligations.OnlyNamedInstructionsWriteFlag : Prop :=
  ∀ (i : Instr) (s t : State), exec i s = .next t → t.v[15] ≠ s.v[15] →
    match i with
    | .addReg _ _ | .sub _ _ | .subn _ _ | .shr _ | .shl _ | .draw _ _ _ | .addIndex _ => True
    | .setImm x _ | .addImm x _ | .setReg x _ | .orReg x _ | .andReg x _ | .xorReg x _ | .random x _
    | .getDelay x | .waitKey x | .loadRegs x => x = 15
    | _ => False

/-- Which instructions can change each piece of state, V and PC apart (10_state.md R20, "Written by"). -/
def Obligations.WritersOfEachState : Prop :=
  ∀ (i : Instr) (s t : State), exec i s = .next t →
    (t.mem ≠ s.mem → ∃ x, i = .storeBcd x ∨ i = .storeRegs x) ∧
    (t.fb ≠ s.fb ∨ t.rd ≠ s.rd → i = .clearScreen ∨ ∃ x y n, i = .draw x y n) ∧
    (t.idx ≠ s.idx → (∃ nnn, i = .setIndex nnn) ∨
      ∃ x, i = .addIndex x ∨ i = .indexToSprite x ∨ i = .storeRegs x ∨ i = .loadRegs x) ∧
    (t.stack ≠ s.stack → ∃ nnn, i = .call nnn) ∧
    (t.sp ≠ s.sp → i = .ret ∨ ∃ nnn, i = .call nnn) ∧
    (t.dt ≠ s.dt → ∃ x, i = .setDelay x) ∧
    (t.st ≠ s.st → ∃ x, i = .setSound x) ∧
    t.key = s.key ∧ t.params = s.params

/-- The invariant (memory in canonical form, CAUSE None exactly when not HALTED) is kept by every step. -/
def Obligations.StepKeepsInvariant : Prop := ∀ s t : State, s.Inv → step s = .next t → t.Inv

/-- The invariant is kept by every sequence of events: reset, load, step, tick, key_set and redraw_ack. -/
def Obligations.EventsKeepInvariant : Prop :=
  ∀ (es : List Event) (s : State), s.Inv → ∃ t, applyEvents es s = .next t ∧ t.Inv

/-- The invariant holds after reset. -/
def Obligations.ResetHasInvariant : Prop := State.reset.Inv

/-- Equal contents are equal data: two memories in canonical form that read alike are the same list (log 7). -/
def Obligations.CanonicalMemoryIsUnique : Prop :=
  ∀ m m' : Memory, Memory.wf m = true → Memory.wf m' = true → (∀ a, Memory.read m a = Memory.read m' a) → m = m'

/-- A jump to itself is an end of run: once it has executed, no further step changes any state (R129;
that the report Executed stands too is the model's, log 1). -/
def Obligations.SelfJumpChangesNothing : Prop :=
  ∀ s : State, s.atSelfJump → s.ctl = .ready → s.lastOutcome = some .executed → step s = .next s

/-! ### Control flow -/

/-- jump nnn: PC becomes nnn, and nothing else changes (R142). -/
def Obligations.JumpSetsPc : Prop :=
  Encoded 0x1000 0xF000 (fun w => .jump (nnnOf w)) ∧
  ∀ (nnn : BitVec 12) (s : State), ∃ p : Word, p.toNat = nnn.toNat ∧ Completes (.jump nnn) s { s with pc := p }

/-- jump nnn+V0: PC becomes nnn + V[0], never reduced, and nothing else changes (R148, D14). -/
def Obligations.JumpV0AddsRegisterZero : Prop :=
  Encoded 0xB000 0xF000 (fun w => .jumpV0 (nnnOf w)) ∧
  ∀ (nnn : BitVec 12) (s : State), ∃ p : Word, p.toNat = nnn.toNat + s.v[0].toNat ∧
    Completes (.jumpV0 nnn) s { s with pc := p }

/-- call nnn: STACK[SP] <- PC, the address of the call itself, SP <- SP + 1, pc <- nnn; StackOverflow when SP = 16
(R143, R33, D7). -/
def Obligations.CallPushesItsOwnAddress : Prop :=
  Encoded 0x2000 0xF000 (fun w => .call (nnnOf w)) ∧
  ∀ (nnn : BitVec 12) (s : State),
    (s.sp.val = 16 → Halts (.call nnn) s .stackOverflow) ∧
    (s.sp.val < 16 → ∃ (p : Word) (q : Fin 17) (k : Vector Word 16),
      p.toNat = nnn.toNat ∧ q.val = s.sp.val + 1 ∧
      (∀ j : Fin 16, k[j] = if j.val = s.sp.val then s.pc else s.stack[j]) ∧
      Completes (.call nnn) s { s with stack := k, sp := q, pc := p })

/-- return: SP <- SP - 1, pc <- STACK[SP] + 2, the popped entry kept; StackUnderflow when SP = 0 (R141, R34, D8). -/
def Obligations.ReturnGoesPastTheCall : Prop :=
  Encoded 0x00EE 0xF0FF (fun _ => .ret) ∧
  ∀ s : State,
    (s.sp.val = 0 → Halts .ret s .stackUnderflow) ∧
    (∀ j : Fin 16, s.sp.val = j.val + 1 → ∃ q : Fin 17, q.val = j.val ∧
      Completes .ret s { s with sp := q, pc := s.stack[j] + 2 })

/-- A call followed by a return resumes at the instruction after the call, with SP as before and only the stack entry
above it changed (R141, R143). -/
def Obligations.ReturnUndoesCall : Prop :=
  ∀ (nnn : BitVec 12) (s t : State), exec (.call nnn) s = .next t → t.ctl ≠ .halted →
    ∃ k : Vector Word 16, (∀ j : Fin 16, j.val < s.sp.val → k[j] = s.stack[j]) ∧
      Completes .ret t { s with stack := k, pc := s.pc + 2 }

/-- The four register skips: PC + 4 when the condition is true, else PC + 2 (R144 to R147). -/
def Obligations.SkipsTestRegisters : Prop :=
  Encoded 0x3000 0xF000 (fun w => .skipEqImm (xOf w) (nnOf w)) ∧
  Encoded 0x4000 0xF000 (fun w => .skipNeImm (xOf w) (nnOf w)) ∧
  Encoded 0x5000 0xF000 (fun w => .skipEqReg (xOf w) (yOf w)) ∧
  Encoded 0x9000 0xF000 (fun w => .skipNeReg (xOf w) (yOf w)) ∧
  ∀ (x y : Reg) (nn : Byte) (s : State),
    SkipsIf (.skipEqImm x nn) s (s.v[x] = nn) ∧
    SkipsIf (.skipNeImm x nn) s (s.v[x] ≠ nn) ∧
    SkipsIf (.skipEqReg x y) s (s.v[x] = s.v[y]) ∧
    SkipsIf (.skipNeReg x y) s (s.v[x] ≠ s.v[y])

/-! ### ALU -/

/-- set Vx,nn and add Vx,nn, modulo 256 and with no flag (R160, R161). -/
def Obligations.ImmediateForms : Prop :=
  Encoded 0x6000 0xF000 (fun w => .setImm (xOf w) (nnOf w)) ∧
  Encoded 0x7000 0xF000 (fun w => .addImm (xOf w) (nnOf w)) ∧
  ∀ (x : Reg) (nn : Byte) (s : State),
    RegistersBecome (.setImm x nn) s (fun k => if k = x then nn else s.v[k]) ∧
    RegistersBecome (.addImm x nn) s
      (fun k => if k = x then BitVec.ofNat 8 ((s.v[x].toNat + nn.toNat) % 256) else s.v[k])

/-- set, or, and, xor of Vx,Vy; none touches V[15] unless it is Vx (R162 to R165). -/
def Obligations.CopyAndBitwise : Prop :=
  Encoded 0x8000 0xF00F (fun w => .setReg (xOf w) (yOf w)) ∧
  Encoded 0x8001 0xF00F (fun w => .orReg (xOf w) (yOf w)) ∧
  Encoded 0x8002 0xF00F (fun w => .andReg (xOf w) (yOf w)) ∧
  Encoded 0x8003 0xF00F (fun w => .xorReg (xOf w) (yOf w)) ∧
  ∀ (x y : Reg) (s : State),
    RegistersBecome (.setReg x y) s (fun k => if k = x then s.v[y] else s.v[k]) ∧
    RegistersBecome (.orReg x y) s (fun k => if k = x then s.v[x] ||| s.v[y] else s.v[k]) ∧
    RegistersBecome (.andReg x y) s (fun k => if k = x then s.v[x] &&& s.v[y] else s.v[k]) ∧
    RegistersBecome (.xorReg x y) s (fun k => if k = x then s.v[x] ^^^ s.v[y] else s.v[k])

/-- add Vx,Vy: the sum modulo 256, V[15] the carry; with x = 15 the carry stands (R166, D15). -/
def Obligations.AddWithCarryFlag : Prop :=
  Encoded 0x8004 0xF00F (fun w => .addReg (xOf w) (yOf w)) ∧
  ∀ (x y : Reg) (s : State),
    RegistersBecome (.addReg x y) s (fun k =>
      if k = 15 then (if s.v[x].toNat + s.v[y].toNat > 255 then 1 else 0)
      else if k = x then BitVec.ofNat 8 ((s.v[x].toNat + s.v[y].toNat) % 256) else s.v[k])

/-- sub and subn: the difference modulo 256, V[15] = 0 on a borrow, else 1; with x = 15 the flag stands (R167, R169,
D15). -/
def Obligations.SubtractWithBorrowComplement : Prop :=
  Encoded 0x8005 0xF00F (fun w => .sub (xOf w) (yOf w)) ∧
  Encoded 0x8007 0xF00F (fun w => .subn (xOf w) (yOf w)) ∧
  ∀ (x y : Reg) (s : State),
    RegistersBecome (.sub x y) s (fun k =>
      if k = 15 then (if s.v[y].toNat > s.v[x].toNat then 0 else 1)
      else if k = x then BitVec.ofNat 8 ((s.v[x].toNat + 256 - s.v[y].toNat) % 256) else s.v[k]) ∧
    RegistersBecome (.subn x y) s (fun k =>
      if k = 15 then (if s.v[x].toNat > s.v[y].toNat then 0 else 1)
      else if k = x then BitVec.ofNat 8 ((s.v[y].toNat + 256 - s.v[x].toNat) % 256) else s.v[k])

/-- shr and shl shift Vx by one, V[15] the bit shifted out; the flag is written first, so with x = 15 it is shifted: 0
for shr, 0 or 2 for shl (R168, R170, D15). -/
def Obligations.ShiftsWriteFlagFirst : Prop :=
  Encoded 0x8006 0xF00F (fun w => .shr (xOf w)) ∧
  Encoded 0x800E 0xF00F (fun w => .shl (xOf w)) ∧
  ∀ (x : Reg) (s : State),
    RegistersBecome (.shr x) s (fun k =>
      if k = 15 then (if x = 15 then 0 else BitVec.ofNat 8 (s.v[x].toNat % 2))
      else if k = x then BitVec.ofNat 8 (s.v[x].toNat / 2) else s.v[k]) ∧
    RegistersBecome (.shl x) s (fun k =>
      if k = 15 then (if x = 15 then (if s.v[x].toNat ≥ 128 then 2 else 0) else BitVec.ofNat 8 (s.v[x].toNat / 128))
      else if k = x then BitVec.ofNat 8 (s.v[x].toNat * 2 % 256) else s.v[k])

/-- random Vx,nn: Vx becomes some byte AND nn, whatever the draw, and nothing else of the machine changes (R171, D19). Where
the model takes the draw from, and its draw counter, are its own (log 3): the statement leaves both open. -/
def Obligations.RandomIsMaskedByNn : Prop :=
  Encoded 0xC000 0xF000 (fun w => .random (xOf w) (nnOf w)) ∧
  ∀ (x : Reg) (nn : Byte) (s : State), ∃ (r : Byte) (v' : Vector Byte 16) (d : Nat),
    Completes (.random x nn) s { s with v := v', draws := d, pc := s.pc + 2 } ∧
    (∀ k : Reg, v'[k] = if k = x then r &&& nn else s.v[k]) ∧
    (∀ b : Nat, nn.getLsbD b = false → v'[x].getLsbD b = false)

/-! ### Index register and memory -/

/-- set-index nnn: I becomes nnn, and nothing else but PC changes (R190, D2). -/
def Obligations.SetIndexLoadsLiteral : Prop :=
  Encoded 0xA000 0xF000 (fun w => .setIndex (nnnOf w)) ∧
  ∀ (nnn : BitVec 12) (s : State), ∃ a : Word, a.toNat = nnn.toNat ∧
    Completes (.setIndex nnn) s { s with idx := a, pc := s.pc + 2 }

/-- index-to-sprite Vx: I becomes the whole of Vx times 5, and nothing else but PC changes (R192). -/
def Obligations.IndexToSpriteTimesFive : Prop :=
  Encoded 0xF029 0xF0FF (fun w => .indexToSprite (xOf w)) ∧
  ∀ (x : Reg) (s : State), ∃ a : Word, a.toNat = s.v[x].toNat * 5 ∧
    Completes (.indexToSprite x) s { s with idx := a, pc := s.pc + 2 }

/-- add-index Vx: I modulo 65536, then V[15] = 1 if the I just written exceeds 0xFFF, else 0 (R191, D22). -/
def Obligations.AddIndexSetsFlag : Prop :=
  Encoded 0xF01E 0xF0FF (fun w => .addIndex (xOf w)) ∧
  ∀ (x : Reg) (s : State), ∃ (a : Word) (v' : Vector Byte 16),
    a.toNat = (s.idx.toNat + s.v[x].toNat) % 65536 ∧
    (∀ k : Reg, v'[k] = if k = 15 then (if a.toNat > 0xFFF then 1 else 0) else s.v[k]) ∧
    Completes (.addIndex x) s { s with v := v', idx := a, pc := s.pc + 2 }

/-- store-bcd Vx: hundreds, tens and ones at I, I+1, I+2, every other byte as before, I unchanged; MemoryBounds before
any write when I + 2 > 0xFFF (R193, D9). -/
def Obligations.StoreBcdWritesDigits : Prop :=
  Encoded 0xF033 0xF0FF (fun w => .storeBcd (xOf w)) ∧
  ∀ (x : Reg) (s : State),
    (s.idx.toNat + 2 > 0xFFF → Halts (.storeBcd x) s .memoryBounds) ∧
    (s.idx.toNat + 2 ≤ 0xFFF → ∃ m : Memory,
      (∀ a : Nat, (Memory.read m a).toNat =
        if a = s.idx.toNat then s.v[x].toNat / 100
        else if a = s.idx.toNat + 1 then s.v[x].toNat / 10 % 10
        else if a = s.idx.toNat + 2 then s.v[x].toNat % 10
        else (Memory.read s.mem a).toNat) ∧
      Completes (.storeBcd x) s { s with mem := m, pc := s.pc + 2 })

/-- store-regs Vx: V[0] to V[x] at I to I + x, every other byte as before, I advanced past the block modulo 65536;
MemoryBounds before any write when I + x > 0xFFF (R194, D9). -/
def Obligations.StoreRegsWritesBlock : Prop :=
  Encoded 0xF055 0xF0FF (fun w => .storeRegs (xOf w)) ∧
  ∀ (x : Reg) (s : State),
    (s.idx.toNat + x.val > 0xFFF → Halts (.storeRegs x) s .memoryBounds) ∧
    (s.idx.toNat + x.val ≤ 0xFFF → ∃ (m : Memory) (a' : Word),
      a'.toNat = (s.idx.toNat + x.val + 1) % 65536 ∧
      (∀ k : Reg, k ≤ x → Memory.read m (s.idx.toNat + k.val) = s.v[k]) ∧
      (∀ a : Nat, a < s.idx.toNat ∨ s.idx.toNat + x.val < a → Memory.read m a = Memory.read s.mem a) ∧
      Completes (.storeRegs x) s { s with mem := m, idx := a', pc := s.pc + 2 })

/-- load-regs Vx: V[0] to V[x] from MEM[I] to MEM[I + x], the registers above unchanged, memory unchanged, I advanced
past the block modulo 65536; MemoryBounds before any write when I + x > 0xFFF (R195, D9). -/
def Obligations.LoadRegsReadsBlock : Prop :=
  Encoded 0xF065 0xF0FF (fun w => .loadRegs (xOf w)) ∧
  ∀ (x : Reg) (s : State),
    (s.idx.toNat + x.val > 0xFFF → Halts (.loadRegs x) s .memoryBounds) ∧
    (s.idx.toNat + x.val ≤ 0xFFF → ∃ (v' : Vector Byte 16) (a' : Word),
      a'.toNat = (s.idx.toNat + x.val + 1) % 65536 ∧
      (∀ k : Reg, v'[k] = if k ≤ x then Memory.read s.mem (s.idx.toNat + k.val) else s.v[k]) ∧
      Completes (.loadRegs x) s { s with v := v', idx := a', pc := s.pc + 2 })

/-- store-regs followed by load-regs with the same x and I gives V[0] to V[x] back exactly, whatever the registers hold
in between; the program restores I (95_test_vectors.md S5, R194, R195). -/
def Obligations.StoreThenLoadRegsRoundTrips : Prop :=
  ∀ (x : Reg) (s t : State) (between : Vector Byte 16),
    exec (.storeRegs x) s = .next t → t.ctl ≠ .halted →
    ∃ u, exec (.loadRegs x) { t with idx := s.idx, v := between } = .next u ∧
      (∀ k : Reg, u.v[k] = if k ≤ x then s.v[k] else between[k]) ∧ u.mem = t.mem ∧ u.idx = t.idx

/-- Self-modifying code needs no fence: bytes store-regs has just written at PC are what the next fetch sees (R74). -/
def Obligations.StoreIsSeenByNextFetch : Prop :=
  ∀ (x k : Reg) (s t : State), exec (.storeRegs x) s = .next t → t.ctl ≠ .halted → k < x →
    t.pc.toNat = s.idx.toNat + k.val →
    ∀ k' : Reg, k'.val = k.val + 1 → t.fetchWord.toNat = s.v[k].toNat * 256 + s.v[k'].toNat

/-! ### Graphics -/

/-- clear-screen: every cell 0, RD set, and nothing else changes (R210). -/
def Obligations.ClearScreenBlanks : Prop :=
  Encoded 0x00E0 0xF0FF (fun _ => .clearScreen) ∧
  ∀ s : State, ∃ f : FrameBuffer, (∀ cell, pixel f cell = false) ∧
    Completes .clearScreen s { s with fb := f, rd := true, pc := s.pc + 2 }

/-- draw Vx,Vy,n: exactly the cells under the sprite's 1 bits are toggled, V[15] says whether one of them was on, RD is
set; MemoryBounds before any write when a sprite byte lies above 0xFFF; n = 0 draws nothing and clears V[15] (R211, D9, D17,
D27). -/
def Obligations.DrawTogglesCoveredCells : Prop :=
  Encoded 0xD000 0xF000 (fun w => .draw (xOf w) (yOf w) (nOf w)) ∧
  ∀ (x y : Reg) (n : BitVec 4) (s : State),
    (¬ SpriteInMemory s n → Halts (.draw x y n) s .memoryBounds) ∧
    (SpriteInMemory s n → ∃ (f : FrameBuffer) (v' : Vector Byte 16),
      (∀ cell, pixel f cell = true ↔ ¬ (pixel s.fb cell = true ↔ SpriteCovers s x y n cell)) ∧
      ((∃ cell, SpriteCovers s x y n cell ∧ pixel s.fb cell = true) → v'[15] = 1) ∧
      ((¬ ∃ cell, SpriteCovers s x y n cell ∧ pixel s.fb cell = true) → v'[15] = 0) ∧
      (∀ k : Reg, k ≠ 15 → v'[k] = s.v[k]) ∧
      Completes (.draw x y n) s { s with v := v', fb := f, rd := true, pc := s.pc + 2 })

/-- Place by DRAW_EDGE, and a sprite wholly inside the grid is drawn identically under both values (R212,
D13). -/
def Obligations.DrawEdgePlacesPixels : Prop :=
  (∀ px py : Nat, ∃ cell : Cell, place .wrap px py = some cell ∧ cell.1.val = px % 64 ∧ cell.2.val = py % 32) ∧
  (∀ px py : Nat,
    if px ≤ 63 ∧ py ≤ 31 then ∃ cell : Cell, place .clip px py = some cell ∧ cell.1.val = px ∧ cell.2.val = py
    else place .clip px py = none) ∧
  ∀ (x y : Reg) (n : BitVec 4) (s : State) (p q : Params), s.v[x].toNat ≤ 56 → s.v[y].toNat + n.toNat ≤ 32 →
    ∀ t u : State, exec (.draw x y n) { s with params := p } = .next t →
      exec (.draw x y n) { s with params := q } = .next u → u = { t with params := q }

/-- Drawing the same sprite at the same place twice restores the framebuffer, and the second draw's V[15] is 1 exactly
when a cell under the sprite was off before the first (R213). x and y are not 15. -/
def Obligations.DrawingTwiceRestores : Prop :=
  ∀ (x y : Reg) (n : BitVec 4) (s t : State), x ≠ 15 → y ≠ 15 →
    exec (.draw x y n) s = .next t → t.ctl ≠ .halted →
    ∃ u, exec (.draw x y n) t = .next u ∧ u.fb = s.fb ∧
      (u.v[15] = 1 ↔ ∃ cell, SpriteCovers s x y n cell ∧ pixel s.fb cell = false)

/-! ### Timers and keys -/

/-- get-delay, set-delay and set-sound (R230 to R232). -/
def Obligations.TimerMoves : Prop :=
  Encoded 0xF007 0xF0FF (fun w => .getDelay (xOf w)) ∧
  Encoded 0xF015 0xF0FF (fun w => .setDelay (xOf w)) ∧
  Encoded 0xF018 0xF0FF (fun w => .setSound (xOf w)) ∧
  ∀ (x : Reg) (s : State),
    RegistersBecome (.getDelay x) s (fun k => if k = x then s.dt else s.v[k]) ∧
    Completes (.setDelay x) s { s with dt := s.v[x], pc := s.pc + 2 } ∧
    Completes (.setSound x) s { s with st := s.v[x], pc := s.pc + 2 }

/-- The key skips test the key named by the content of Vx; Vx > 15 halts KeyIndexRange with PC unchanged (R233, R234,
D11). -/
def Obligations.KeySkipsTestKeyState : Prop :=
  Encoded 0xE09E 0xF0FF (fun w => .skipKeyPressed (xOf w)) ∧
  Encoded 0xE0A1 0xF0FF (fun w => .skipKeyNotPressed (xOf w)) ∧
  ∀ (x : Reg) (s : State),
    (s.v[x].toNat > 15 →
      Halts (.skipKeyPressed x) s .keyIndexRange ∧
      Halts (.skipKeyNotPressed x) s .keyIndexRange) ∧
    (∀ k : Key, s.v[x].toNat = k.val →
      SkipsIf (.skipKeyPressed x) s (s.key[k] = true) ∧
      SkipsIf (.skipKeyNotPressed x) s (s.key[k] = false))

/-- wait-key: Blocked with nothing changed when no key is down; else Vx becomes the index of a key that is down, the
smallest under `lowest`, the largest under `highest`, any one under `any` (R235, D12). The draw counter is the model's
own and moves only under `any` (log 4); so is the place of the reports Blocked and Executed (log 1). -/
def Obligations.WaitKeyTakesPressedKey : Prop :=
  Encoded 0xF00A 0xF0FF (fun w => .waitKey (xOf w)) ∧
  ∀ (x : Reg) (s : State),
    ((∀ k : Key, s.key[k] = false) →
      exec (.waitKey x) s = .next { s with ctl := .awaitKey, lastOutcome := some .blocked }) ∧
    ((∃ k : Key, s.key[k] = true) → ∃ (k : Key) (v' : Vector Byte 16) (d : Nat),
      s.key[k] = true ∧
      (s.params.waitKeyPick = .lowest → ∀ j : Key, s.key[j] = true → k ≤ j) ∧
      (s.params.waitKeyPick = .highest → ∀ j : Key, s.key[j] = true → j ≤ k) ∧
      (s.params.waitKeyPick ≠ .any → d = s.draws) ∧
      (∀ j : Reg, v'[j] = if j = x then BitVec.ofNat 8 k.val else s.v[j]) ∧
      exec (.waitKey x) s =
        .next { s with v := v', draws := d, pc := s.pc + 2, ctl := .ready, lastOutcome := some .executed })

/-! ### Events -/

/-- tick: each timer counts down by one and stops at 0, in every control state, and nothing else changes (R262,
D18). -/
def Obligations.TickCountsDownToZero : Prop :=
  ∀ s : State, ∃ d e : Byte, d.toNat = s.dt.toNat - 1 ∧ e.toNat = s.st.toNat - 1 ∧
    applyEvent .tick s = .next { s with dt := d, st := e }

/-- key_set changes the one flag, redraw_ack clears RD, and no other event ever clears RD (R265, R269). -/
def Obligations.KeySetAndRedrawAck : Prop :=
  ∀ (s : State) (k : Key) (b : Bool),
    (∃ key' : Vector Bool 16, (∀ j : Key, key'[j] = if j = k then b else s.key[j]) ∧
      applyEvent (.keySet k b) s = .next { s with key := key' }) ∧
    applyEvent .redrawAck s = .next { s with rd := false } ∧
    ∀ (e : Event) (t : State), applyEvent e s = .next t → s.rd = true → t.rd = false → e = .redrawAck

/-- load: the image is copied whole when it fits, and nothing else of the machine changes; else ImageTooLarge and no
state changes at all (R296, D24). -/
def Obligations.LoadIsAllOrNothing : Prop :=
  ∀ (bytes : List Byte) (origin : Nat) (s : State),
    (origin > 4096 ∨ bytes.length > 4096 - origin → s.load bytes origin = (.imageTooLarge, s)) ∧
    (origin ≤ 4096 ∧ bytes.length ≤ 4096 - origin → ∃ m : Memory,
      (∀ k (h : k < bytes.length), Memory.read m (origin + k) = bytes[k]) ∧
      (∀ a : Nat, a < origin ∨ origin + bytes.length ≤ a → Memory.read m a = Memory.read s.mem a) ∧
      s.load bytes origin = (.loaded, { s with mem := m }))

/-- At the default origin 0x200 an image of exactly 3584 bytes loads, its last byte landing at 0xFFF, and one of 3585
bytes is too large (R298). -/
def Obligations.LargestImageIs3584Bytes : Prop :=
  defaultOrigin = 0x200 ∧
  ∀ (bytes : List Byte) (s : State),
    (bytes.length = 3584 → (s.load bytes defaultOrigin).1 = .loaded ∧
      bytes.getLast? = some (Memory.read (s.load bytes defaultOrigin).2.mem 0xFFF)) ∧
    (bytes.length = 3585 → s.load bytes defaultOrigin = (.imageTooLarge, s))

/-- reset, from any state: every piece of the machine's state at its value of R44, memory the font and then zeros; the
parameters and the draw counter, which are no state of the machine, are kept (R290, D5, D16, log 12). -/
def Obligations.ResetPutsEverythingAtItsValue : Prop :=
  ∀ s : State, ∃ t, applyEvent .reset s = .next t ∧
    (∀ x : Reg, t.v[x] = 0) ∧ t.pc = 0x200 ∧ t.idx = 0 ∧ (∀ j : Fin 16, t.stack[j] = 0) ∧ t.sp.val = 0 ∧
    t.dt = 0 ∧ t.st = 0 ∧ (∀ k : Key, t.key[k] = false) ∧ (∀ cell, pixel t.fb cell = false) ∧ t.rd = true ∧
    (∀ a : Fin 80, Config.font[a.val]? = some (Memory.read t.mem a.val)) ∧
    (∀ a : Nat, 80 ≤ a → Memory.read t.mem a = 0) ∧
    t.ctl = .ready ∧ t.cause = none ∧ t.params = s.params ∧ t.draws = s.draws ∧ t.lastOutcome = none

/-- Only reset leaves HALTED: under any other events a halted machine stays halted with its cause, its registers, PC,
stack and framebuffer (R251, R257, D25). -/
def Obligations.OnlyResetLeavesHalted : Prop :=
  ∀ (es : List Event) (s t : State), s.ctl = .halted → Event.reset ∉ es → applyEvents es s = .next t →
    t.ctl = .halted ∧ t.cause = s.cause ∧ t.v = s.v ∧ t.pc = s.pc ∧ t.idx = s.idx ∧ t.stack = s.stack ∧
    t.sp = s.sp ∧ t.fb = s.fb
end

