-- ==== Sys2Proof/Laws/Display.lean ====
section
/-! SUPPORT. The laws of the framebuffer: what a cell is after one toggle, and after all the toggles of a draw. -/

namespace Sys2Proof.Machine

/-- The cells determine the framebuffer. -/
theorem frameBuffer_ext {fb fb' : FrameBuffer} (h : ∀ cell, pixel fb cell = pixel fb' cell) : fb = fb' := by
  refine Vector.ext fun cy hy => BitVec.eq_of_getLsbD_eq fun cx hx => ?_
  exact h (⟨cx, hx⟩, ⟨cy, hy⟩)

@[simp] theorem pixel_blank (cell : Cell) : pixel blank cell = false := by simp [pixel, blank]

/-- A toggle inverts its cell and leaves every other. -/
@[simp] theorem pixel_togglePixel (fb : FrameBuffer) (c d : Cell) :
    pixel (togglePixel fb c) d = (pixel fb d ^^ decide (d = c)) := by
  obtain ⟨cx, cy⟩ := c
  obtain ⟨dx, dy⟩ := d
  by_cases hy : dy = cy
  · subst hy
    simp [pixel, togglePixel, Fin.ext_iff]
  · have : cy.val ≠ dy.val := fun e => hy (Fin.ext e.symm)
    simp [pixel, togglePixel, hy, this]

/-- After a draw a cell is inverted once for each time it stands in the list of cells. -/
theorem pixel_foldl_plot (cells : List Cell) (d : FrameBuffer × Bool) (cell : Cell) :
    pixel (cells.foldl plot d).1 cell = (pixel d.1 cell ^^ decide (cells.count cell % 2 = 1)) := by
  induction cells generalizing d with
  | nil => simp
  | cons c cs ih =>
    rw [List.foldl_cons, ih, plot]
    simp only [pixel_togglePixel, List.count_cons]
    by_cases h : cell = c
    · subst h
      have e : ((cs.count cell + 1) % 2 = 1) ↔ ¬ (cs.count cell % 2 = 1) := by omega
      by_cases hp : cs.count cell % 2 = 1 <;> simp [e, hp]
    · have h' : c ≠ cell := fun e => h e.symm
      simp [h, h']

/-- After a draw a cell is inverted once for each time it stands in the list of cells. -/
theorem pixel_plotAll (fb : FrameBuffer) (cells : List Cell) (cell : Cell) :
    pixel (plotAll fb cells).1 cell = (pixel fb cell ^^ decide (cells.count cell % 2 = 1)) :=
  pixel_foldl_plot cells (fb, false) cell

/-- Where no cell stands twice, the hit says whether some cell of the list was on before the draw. -/
theorem hit_foldl_plot (cells : List Cell) (d : FrameBuffer × Bool) (h : cells.Nodup) :
    (cells.foldl plot d).2 = (d.2 || cells.any (pixel d.1)) := by
  induction cells generalizing d with
  | nil => simp
  | cons c cs ih =>
    obtain ⟨hc, hcs⟩ := List.nodup_cons.mp h
    rw [List.foldl_cons, ih _ hcs, plot]
    have e : cs.any (pixel (togglePixel d.1 c)) = cs.any (pixel d.1) := by
      rw [Bool.eq_iff_iff, List.any_eq_true, List.any_eq_true]
      refine exists_congr fun x => and_congr_right fun hx => ?_
      have : x ≠ c := fun e => hc (e ▸ hx)
      simp [this]
    simp [e, Bool.or_assoc]

theorem hit_plotAll (fb : FrameBuffer) (cells : List Cell) (h : cells.Nodup) :
    (plotAll fb cells).2 = cells.any (pixel fb) := by
  simpa [plotAll] using hit_foldl_plot cells (fb, false) h

/-- Where Place puts a pixel, if anywhere (R212). -/
theorem place_eq_some (edge : DrawEdge) (px py : Nat) (cell : Cell) :
    place edge px py = some cell ↔
      match edge with
      | .wrap => cell.1.val = px % 64 ∧ cell.2.val = py % 32
      | .clip => cell.1.val = px ∧ cell.2.val = py := by
  obtain ⟨cx, cy⟩ := cell
  cases edge with
  | wrap => simp [place, Fin.ext_iff, eq_comm]
  | clip =>
    have := cx.isLt
    have := cy.isLt
    simp only [place]
    split
    · simp [Fin.ext_iff, eq_comm]
    · simp only [reduceCtorEq, false_iff]; omega

/-- Two pixels fewer than 64 columns and 32 rows apart do not land on one cell (R211). -/
theorem place_injective {edge : DrawEdge} {px py c c' r r' : Nat} {cell : Cell} (hc : c < 64) (hc' : c' < 64)
    (hr : r < 32) (hr' : r' < 32) (h : place edge (px + c) (py + r) = some cell)
    (h' : place edge (px + c') (py + r') = some cell) : c = c' ∧ r = r' := by
  rw [place_eq_some] at h h'
  cases edge <;> simp only at h h' <;> omega

theorem mem_rowCells (edge : DrawEdge) (px py : Nat) (b : Byte) (cell : Cell) :
    cell ∈ rowCells edge px py b ↔ ∃ c, c < 8 ∧ b.getLsbD (7 - c) = true ∧ place edge (px + c) py = some cell := by
  simp only [rowCells, List.mem_flatMap, List.mem_range]
  refine exists_congr fun c => and_congr_right fun _ => ?_
  by_cases hb : b.getLsbD (7 - c) = true <;> simp [hb]

/-- The cells of a sprite: those under a 1 bit of some row (R211). -/
theorem mem_spriteCells (edge : DrawEdge) (px : Nat) (bs : List Byte) (py : Nat) (cell : Cell) :
    cell ∈ spriteCells edge px py bs ↔ ∃ r c, ∃ h : r < bs.length, c < 8 ∧ (bs[r]'h).getLsbD (7 - c) = true ∧
      place edge (px + c) (py + r) = some cell := by
  induction bs generalizing py with
  | nil => simp [spriteCells]
  | cons b bs ih =>
    rw [spriteCells, List.mem_append, mem_rowCells, ih]
    constructor
    · rintro (⟨c, hc, hb, hp⟩ | ⟨r, c, h, hc, hb, hp⟩)
      · exact ⟨0, c, by simp, hc, by simpa using hb, by simpa using hp⟩
      · exact ⟨r + 1, c, by simpa using h, hc, by simpa using hb, by rw [← hp]; congr 1; omega⟩
    · rintro ⟨r, c, h, hc, hb, hp⟩
      cases r with
      | zero => exact .inl ⟨c, hc, by simpa using hb, by simpa using hp⟩
      | succ r =>
        exact .inr ⟨r, c, by simpa using h, hc, by simpa using hb, by rw [← hp]; congr 1; omega⟩

theorem nodup_rowCells (edge : DrawEdge) (px py : Nat) (b : Byte) : (rowCells edge px py b).Nodup := by
  rw [rowCells, List.nodup_flatMap]
  constructor
  · intro c _; split
    · cases place edge (px + c) py <;> simp
    · simp
  · refine List.nodup_range.pairwise_of_forall_ne fun c hc c' hc' hne => ?_
    intro cell h h'
    rw [List.mem_range] at hc hc'
    have g : place edge (px + c) (py + 0) = some cell := by
      by_cases hb : b.getLsbD (7 - c) = true <;> simp_all
    have g' : place edge (px + c') (py + 0) = some cell := by
      by_cases hb : b.getLsbD (7 - c') = true <;> simp_all
    exact hne (place_injective (by omega) (by omega) (by omega) (by omega) g g').1

/-- No two pixels of one sprite fall on the same cell, so the order of the loops is not observable (R211). -/
theorem nodup_spriteCells (edge : DrawEdge) (px : Nat) (bs : List Byte) (py : Nat) (h : bs.length ≤ 32) :
    (spriteCells edge px py bs).Nodup := by
  induction bs generalizing py with
  | nil => exact List.nodup_nil
  | cons b bs ih =>
    rw [List.length_cons] at h
    rw [spriteCells, List.nodup_append]
    refine ⟨nodup_rowCells edge px py b, ih (py + 1) (by omega), ?_⟩
    rintro cell hrow cell' hrest rfl
    obtain ⟨c, hc, -, hp⟩ := (mem_rowCells ..).mp hrow
    obtain ⟨r, c', hr, hc', -, hp'⟩ := (mem_spriteCells ..).mp hrest
    have hp' : place edge (px + c') (py + (r + 1)) = some cell := by rw [← hp']; congr 1; omega
    have := (place_injective (c := c) (c' := c') (r := 0) (r' := r + 1) (by omega) (by omega) (by omega) (by omega) (by simpa using hp) hp').2
    omega

end Sys2Proof.Machine
end

