-- ==== Sys2Proof/Laws/Encoding.lean ====
section
/-! SUPPORT. The fields of a word and the words the formats make, as numbers: every fact about an encoding is then
arithmetic. -/

namespace Sys2Proof

theorem toNat_groupOf (w : Word) : (groupOf w).toNat = w.toNat / 4096 := by
  have := w.isLt
  simp [groupOf, Nat.shiftRight_eq_div_pow]; omega

theorem val_fieldX (w : Word) : (fieldX w).val = w.toNat / 256 % 16 := by
  simp [fieldX, Nat.shiftRight_eq_div_pow]

theorem val_fieldY (w : Word) : (fieldY w).val = w.toNat / 16 % 16 := by
  simp [fieldY, Nat.shiftRight_eq_div_pow]

theorem toNat_fieldN (w : Word) : (fieldN w).toNat = w.toNat % 16 := by simp [fieldN]

theorem toNat_fieldNN (w : Word) : (fieldNN w).toNat = w.toNat % 256 := by simp [fieldNN]

theorem toNat_fieldNNN (w : Word) : (fieldNNN w).toNat = w.toNat % 4096 := by simp [fieldNNN]

/-- Appended fields as a number: the upper one weighs 2^n. -/
theorem toNat_append_eq {m n : Nat} (a : BitVec m) (b : BitVec n) : (a ++ b).toNat = a.toNat * 2 ^ n + b.toNat := by
  rw [BitVec.toNat_append, ← Nat.shiftLeft_add_eq_or_of_lt b.isLt, Nat.shiftLeft_eq]

theorem toNat_encodeXNN (g : BitVec 4) (x : Reg) (nn : Byte) :
    (encodeXNN g x nn).toNat = g.toNat * 4096 + x.val * 256 + nn.toNat :=
  (toNat_append_eq (g ++ BitVec.ofFin (w := 4) x) nn).trans (by rw [toNat_append_eq]; show (g.toNat * 2 ^ 4 + x.val) * 2 ^ 8 + nn.toNat = _; omega)

theorem toNat_encodeXYN (g : BitVec 4) (x y : Reg) (n : BitVec 4) :
    (encodeXYN g x y n).toNat = g.toNat * 4096 + x.val * 256 + y.val * 16 + n.toNat :=
  (toNat_append_eq (g ++ BitVec.ofFin (w := 4) x ++ BitVec.ofFin (w := 4) y) n).trans
    (by rw [toNat_append_eq, toNat_append_eq]
        show ((g.toNat * 2 ^ 4 + x.val) * 2 ^ 4 + y.val) * 2 ^ 4 + n.toNat = _; omega)

theorem toNat_encodeNNN (g : BitVec 4) (nnn : BitVec 12) : (encodeNNN g nnn).toNat = g.toNat * 4096 + nnn.toNat :=
  toNat_append_eq g nnn

@[simp] theorem groupOf_encodeXNN (g : BitVec 4) (x : Reg) (nn : Byte) : groupOf (encodeXNN g x nn) = g := by
  apply BitVec.eq_of_toNat_eq; rw [toNat_groupOf, toNat_encodeXNN]; omega

@[simp] theorem fieldX_encodeXNN (g : BitVec 4) (x : Reg) (nn : Byte) : fieldX (encodeXNN g x nn) = x := by
  apply Fin.ext; rw [val_fieldX, toNat_encodeXNN]; omega

@[simp] theorem fieldNN_encodeXNN (g : BitVec 4) (x : Reg) (nn : Byte) : fieldNN (encodeXNN g x nn) = nn := by
  apply BitVec.eq_of_toNat_eq; rw [toNat_fieldNN, toNat_encodeXNN]; omega

@[simp] theorem groupOf_encodeXYN (g : BitVec 4) (x y : Reg) (n : BitVec 4) : groupOf (encodeXYN g x y n) = g := by
  apply BitVec.eq_of_toNat_eq; rw [toNat_groupOf, toNat_encodeXYN]; omega

@[simp] theorem fieldX_encodeXYN (g : BitVec 4) (x y : Reg) (n : BitVec 4) : fieldX (encodeXYN g x y n) = x := by
  apply Fin.ext; rw [val_fieldX, toNat_encodeXYN]; omega

@[simp] theorem fieldY_encodeXYN (g : BitVec 4) (x y : Reg) (n : BitVec 4) : fieldY (encodeXYN g x y n) = y := by
  apply Fin.ext; rw [val_fieldY, toNat_encodeXYN]; omega

@[simp] theorem fieldN_encodeXYN (g : BitVec 4) (x y : Reg) (n : BitVec 4) : fieldN (encodeXYN g x y n) = n := by
  apply BitVec.eq_of_toNat_eq; rw [toNat_fieldN, toNat_encodeXYN]; omega

@[simp] theorem groupOf_encodeNNN (g : BitVec 4) (nnn : BitVec 12) : groupOf (encodeNNN g nnn) = g := by
  apply BitVec.eq_of_toNat_eq; rw [toNat_groupOf, toNat_encodeNNN]; omega

@[simp] theorem fieldNNN_encodeNNN (g : BitVec 4) (nnn : BitVec 12) : fieldNNN (encodeNNN g nnn) = nnn := by
  apply BitVec.eq_of_toNat_eq; rw [toNat_fieldNNN, toNat_encodeNNN]; omega

/-- The two bytes of a word make that word again (20_memory.md R65). -/
@[simp] theorem wordOfBytes_bytesOfWord (w : Word) : wordOfBytes (w.extractLsb' 8 8) (w.extractLsb' 0 8) = w := by
  apply BitVec.eq_of_toNat_eq
  have := w.isLt
  rw [wordOfBytes, toNat_append_eq]
  simp [Nat.shiftRight_eq_div_pow]; omega

/-- Two bytes make MEM[PC] * 256 + MEM[PC+1] (20_memory.md R65). -/
theorem toNat_wordOfBytes (hi lo : Byte) : (wordOfBytes hi lo).toNat = hi.toNat * 256 + lo.toNat :=
  toNat_append_eq hi lo

/-- The bits under the mask 0xF000, as a number (R100). -/
theorem toNat_and_F000 (w : Word) : (w &&& 0xF000).toNat = w.toNat / 4096 * 4096 := by
  have e : w &&& (0xF000 : Word) = (w >>> 12) <<< 12 := by
    apply BitVec.eq_of_getLsbD_eq; intro i hi; interval_cases i <;> simp
  have := w.isLt
  rw [e]; simp [Nat.shiftRight_eq_div_pow, Nat.shiftLeft_eq]; omega

/-- The bits under the mask 0xF0FF, as a number (R100). -/
theorem toNat_and_F0FF (w : Word) : (w &&& 0xF0FF).toNat = w.toNat / 4096 * 4096 + w.toNat % 256 := by
  have e : w &&& (0xF0FF : Word) = ((w >>> 12) <<< 12) + ((w <<< 8) >>> 8) := by
    rw [BitVec.add_eq_or_of_and_eq_zero] <;>
      (apply BitVec.eq_of_getLsbD_eq; intro i hi; interval_cases i <;> simp)
  have := w.isLt
  rw [e]; simp [Nat.shiftRight_eq_div_pow, Nat.shiftLeft_eq]; omega

/-- The bits under the mask 0xF00F, as a number (R100). -/
theorem toNat_and_F00F (w : Word) : (w &&& 0xF00F).toNat = w.toNat / 4096 * 4096 + w.toNat % 16 := by
  have e : w &&& (0xF00F : Word) = ((w >>> 12) <<< 12) + ((w <<< 12) >>> 12) := by
    rw [BitVec.add_eq_or_of_and_eq_zero] <;>
      (apply BitVec.eq_of_getLsbD_eq; intro i hi; interval_cases i <;> simp)
  have := w.isLt
  rw [e]; simp [Nat.shiftRight_eq_div_pow, Nat.shiftLeft_eq]; omega

/-- A word lies in a row of mask 0xF000 exactly when its number starts with the pattern's group. -/
theorem holds_F000 (m : String) (p d : Word) (w : Word) :
    OpcodeRow.holds ⟨m, p, 0xF000, d⟩ w = true ↔ w.toNat / 4096 * 4096 = p.toNat := by
  rw [OpcodeRow.holds, beq_iff_eq, ← BitVec.toNat_inj, toNat_and_F000]

theorem holds_F0FF (m : String) (p d : Word) (w : Word) :
    OpcodeRow.holds ⟨m, p, 0xF0FF, d⟩ w = true ↔ w.toNat / 4096 * 4096 + w.toNat % 256 = p.toNat := by
  rw [OpcodeRow.holds, beq_iff_eq, ← BitVec.toNat_inj, toNat_and_F0FF]

theorem holds_F00F (m : String) (p d : Word) (w : Word) :
    OpcodeRow.holds ⟨m, p, 0xF00F, d⟩ w = true ↔ w.toNat / 4096 * 4096 + w.toNat % 16 = p.toNat := by
  rw [OpcodeRow.holds, beq_iff_eq, ← BitVec.toNat_inj, toNat_and_F00F]

end Sys2Proof
end

