-- ==== Sys2Proof/Laws/Memory.lean ====
section
/-! SUPPORT. The laws of memory: what a read gives after a write, and that every operation keeps the canonical form. -/

namespace Sys2Proof.Machine.Memory

/-- An address with no entry reads as unlisted. -/
theorem read_of_forall_ne (m : Memory) (a : Nat) (h : ∀ c ∈ m, c.1 ≠ a) : read m a = unlisted a := by
  induction m with
  | nil => rfl
  | cons c m ih =>
    have hc : a ≠ c.1 := fun e => h c (by simp) e.symm
    simp only [read, if_neg hc]
    exact ih fun d hd => h d (by simp [hd])

theorem read_forget (m : Memory) (a b : Nat) : read (forget m a) b = if b = a then unlisted a else read m b := by
  induction m with
  | nil => by_cases h : b = a <;> simp [forget, read, h]
  | cons c m ih =>
    obtain ⟨k, v⟩ := c
    rw [forget] at ih ⊢
    by_cases hk : k = a
    · subst hk; by_cases hb : b = k <;> simp_all [read]
    · by_cases hb : b = k
      · subst hb; simp [read, hk]
      · simp_all [read]

theorem forget_ne (m : Memory) (a : Nat) : ∀ c ∈ forget m a, c.1 ≠ a := by
  intro c hc; simpa using (List.mem_filter.mp hc).2

theorem read_insert (m : Memory) (a : Nat) (v : Byte) (b : Nat) (h : ∀ c ∈ m, c.1 ≠ a) :
    read (insert m a v) b = if b = a then v else read m b := by
  induction m with
  | nil => rfl
  | cons c m ih =>
    obtain ⟨k, u⟩ := c
    have hk : k ≠ a := h (k, u) (by simp)
    have ih := ih fun d hd => h d (by simp [hd])
    simp only [insert]
    split
    · rfl
    · by_cases hb : b = k
      · subst hb; simp [read, hk]
      · simp [read, hb, ih]

/-- A read after a write: the byte written at that address, every other address as before. -/
@[simp] theorem read_write (m : Memory) (a : Nat) (v : Byte) (b : Nat) :
    read (write m a v) b = if b = a then v else read m b := by
  rw [write]
  split
  · rename_i h; rw [read_forget, h]
  · rw [read_insert _ _ _ _ (forget_ne m a), read_forget]; split <;> rfl

/-- A read after a block write: the block's byte inside it, every other address as before. -/
theorem read_writeBytes (bs : List Byte) (m : Memory) (a b : Nat) :
    read (writeBytes m a bs) b = if h : a ≤ b ∧ b - a < bs.length then bs[b - a]'h.2 else read m b := by
  induction bs generalizing m a with
  | nil => simp [writeBytes]
  | cons v bs ih =>
    rw [writeBytes, ih]
    rcases Nat.lt_trichotomy b a with h | rfl | h
    · rw [dif_neg (by omega), dif_neg (by omega), read_write, if_neg (by omega)]
    · rw [dif_neg (by omega), dif_pos (by simp), read_write]; simp
    · obtain ⟨d, rfl⟩ : ∃ d, b = a + 1 + d := ⟨b - (a + 1), by omega⟩
      have e : a + 1 + d - a = d + 1 := by omega
      by_cases hd : d < bs.length
      · rw [dif_pos (by simp [hd]), dif_pos (by simp; omega)]; simp [e]
      · rw [dif_neg (by simp [hd]), dif_neg (by simp [e, hd]), read_write, if_neg (by omega)]

@[simp] theorem length_readBytes (m : Memory) (a n : Nat) : (readBytes m a n).length = n := by simp [readBytes]

theorem getElem_readBytes (m : Memory) (a n k : Nat) (h : k < (readBytes m a n).length) :
    (readBytes m a n)[k] = read m (a + k) := by simp [readBytes]

theorem wfFrom_mono {lo lo' : Nat} {m : Memory} (h : wfFrom lo' m = true) (hl : lo ≤ lo') : wfFrom lo m = true := by
  cases m with
  | nil => rfl
  | cons c m => simp only [wfFrom, Bool.and_eq_true, decide_eq_true_eq] at h ⊢; exact ⟨⟨⟨by omega, h.1.1.2⟩, h.1.2⟩, h.2⟩

theorem wfFrom_forget {lo : Nat} {m : Memory} (a : Nat) (h : wfFrom lo m = true) : wfFrom lo (forget m a) = true := by
  induction m generalizing lo with
  | nil => rfl
  | cons c m ih =>
    obtain ⟨k, v⟩ := c
    simp only [wfFrom, Bool.and_eq_true, decide_eq_true_eq] at h
    have ih := ih h.2
    rw [forget] at ih ⊢
    by_cases hk : k = a
    · subst hk
      simp only [List.filter, bne_self_eq_false]
      exact wfFrom_mono (lo' := k + 1) ih (by omega)
    · simp only [List.filter, bne_iff_ne.mpr hk, wfFrom, Bool.and_eq_true, decide_eq_true_eq]
      exact ⟨h.1, ih⟩

theorem wfFrom_insert {lo : Nat} {m : Memory} {a : Nat} {v : Byte} (h : wfFrom lo m = true) (hlo : lo ≤ a)
    (ha : a < 4096) (hv : v ≠ unlisted a) (hm : ∀ c ∈ m, c.1 ≠ a) : wfFrom lo (insert m a v) = true := by
  induction m generalizing lo with
  | nil => simp [insert, wfFrom, hlo, ha, hv]
  | cons c m ih =>
    obtain ⟨k, u⟩ := c
    have hk : k ≠ a := hm (k, u) (by simp)
    simp only [wfFrom, Bool.and_eq_true, decide_eq_true_eq] at h
    simp only [insert]
    split
    · simp only [wfFrom, Bool.and_eq_true, decide_eq_true_eq, bne_iff_ne]
      exact ⟨⟨⟨hlo, ha⟩, hv⟩, ⟨⟨by omega, h.1.1.2⟩, by simpa using h.1.2⟩, h.2⟩
    · simp only [wfFrom, Bool.and_eq_true, decide_eq_true_eq]
      exact ⟨h.1, ih h.2 (by omega) fun d hd => hm d (by simp [hd])⟩

/-- A write inside memory keeps the canonical form. -/
theorem wf_write {m : Memory} {a : Nat} (v : Byte) (h : wf m = true) (ha : a < 4096) : wf (write m a v) = true := by
  rw [write]
  split
  · exact wfFrom_forget a h
  · rename_i hv; exact wfFrom_insert (wfFrom_forget a h) (Nat.zero_le a) ha hv (forget_ne m a)

/-- A block write inside memory keeps the canonical form. -/
theorem wf_writeBytes (bs : List Byte) {m : Memory} {a : Nat} (h : wf m = true) (ha : a + bs.length ≤ 4096) :
    wf (writeBytes m a bs) = true := by
  induction bs generalizing m a with
  | nil => exact h
  | cons v bs ih =>
    simp only [List.length_cons] at ha
    exact ih (wf_write v h (by omega)) (by omega)

/-- The memory of a machine just reset is in canonical form. -/
theorem wf_reset : wf State.reset.mem = true := rfl

end Sys2Proof.Machine.Memory

namespace Sys2Proof.Machine

/-- The bounds check of R66 says the whole range lies below 4096. -/
theorem inMemory_iff (base : Word) (len : Nat) : inMemory base len = true ↔ len = 0 ∨ base.toNat + len ≤ 4096 := by
  simp only [inMemory, Bool.or_eq_true, beq_iff_eq, decide_eq_true_eq]; omega

end Sys2Proof.Machine
end

