-- ==== Sys2Proof/Laws/State.lean ====
section
/-! SUPPORT. One lemma per field per update of State, so that no later proof unfolds a record update. -/

namespace Sys2Proof.Machine.State

variable (s : State)

/-! #### setReg -/

@[simp] theorem setReg_v (x : Reg) (b : Byte) : (s.setReg x b).v = s.v.set x b := rfl
@[simp] theorem setReg_pc (x : Reg) (b : Byte) : (s.setReg x b).pc = s.pc := rfl
@[simp] theorem setReg_idx (x : Reg) (b : Byte) : (s.setReg x b).idx = s.idx := rfl
@[simp] theorem setReg_stack (x : Reg) (b : Byte) : (s.setReg x b).stack = s.stack := rfl
@[simp] theorem setReg_sp (x : Reg) (b : Byte) : (s.setReg x b).sp = s.sp := rfl
@[simp] theorem setReg_dt (x : Reg) (b : Byte) : (s.setReg x b).dt = s.dt := rfl
@[simp] theorem setReg_st (x : Reg) (b : Byte) : (s.setReg x b).st = s.st := rfl
@[simp] theorem setReg_key (x : Reg) (b : Byte) : (s.setReg x b).key = s.key := rfl
@[simp] theorem setReg_fb (x : Reg) (b : Byte) : (s.setReg x b).fb = s.fb := rfl
@[simp] theorem setReg_rd (x : Reg) (b : Byte) : (s.setReg x b).rd = s.rd := rfl
@[simp] theorem setReg_mem (x : Reg) (b : Byte) : (s.setReg x b).mem = s.mem := rfl
@[simp] theorem setReg_ctl (x : Reg) (b : Byte) : (s.setReg x b).ctl = s.ctl := rfl
@[simp] theorem setReg_cause (x : Reg) (b : Byte) : (s.setReg x b).cause = s.cause := rfl
@[simp] theorem setReg_params (x : Reg) (b : Byte) : (s.setReg x b).params = s.params := rfl
@[simp] theorem setReg_draws (x : Reg) (b : Byte) : (s.setReg x b).draws = s.draws := rfl
@[simp] theorem setReg_lastOutcome (x : Reg) (b : Byte) : (s.setReg x b).lastOutcome = s.lastOutcome := rfl

/-! #### setFlag -/

@[simp] theorem setFlag_v (b : Byte) : (s.setFlag b).v = s.v.set flagReg b := rfl
@[simp] theorem setFlag_pc (b : Byte) : (s.setFlag b).pc = s.pc := rfl
@[simp] theorem setFlag_idx (b : Byte) : (s.setFlag b).idx = s.idx := rfl
@[simp] theorem setFlag_stack (b : Byte) : (s.setFlag b).stack = s.stack := rfl
@[simp] theorem setFlag_sp (b : Byte) : (s.setFlag b).sp = s.sp := rfl
@[simp] theorem setFlag_dt (b : Byte) : (s.setFlag b).dt = s.dt := rfl
@[simp] theorem setFlag_st (b : Byte) : (s.setFlag b).st = s.st := rfl
@[simp] theorem setFlag_key (b : Byte) : (s.setFlag b).key = s.key := rfl
@[simp] theorem setFlag_fb (b : Byte) : (s.setFlag b).fb = s.fb := rfl
@[simp] theorem setFlag_rd (b : Byte) : (s.setFlag b).rd = s.rd := rfl
@[simp] theorem setFlag_mem (b : Byte) : (s.setFlag b).mem = s.mem := rfl
@[simp] theorem setFlag_ctl (b : Byte) : (s.setFlag b).ctl = s.ctl := rfl
@[simp] theorem setFlag_cause (b : Byte) : (s.setFlag b).cause = s.cause := rfl
@[simp] theorem setFlag_params (b : Byte) : (s.setFlag b).params = s.params := rfl
@[simp] theorem setFlag_draws (b : Byte) : (s.setFlag b).draws = s.draws := rfl
@[simp] theorem setFlag_lastOutcome (b : Byte) : (s.setFlag b).lastOutcome = s.lastOutcome := rfl

/-! #### resultThenFlag -/

@[simp] theorem resultThenFlag_v (x : Reg) (r f : Byte) : (s.resultThenFlag x r f).v = (s.v.set x r).set flagReg f := rfl
@[simp] theorem resultThenFlag_pc (x : Reg) (r f : Byte) : (s.resultThenFlag x r f).pc = s.pc := rfl
@[simp] theorem resultThenFlag_idx (x : Reg) (r f : Byte) : (s.resultThenFlag x r f).idx = s.idx := rfl
@[simp] theorem resultThenFlag_stack (x : Reg) (r f : Byte) : (s.resultThenFlag x r f).stack = s.stack := rfl
@[simp] theorem resultThenFlag_sp (x : Reg) (r f : Byte) : (s.resultThenFlag x r f).sp = s.sp := rfl
@[simp] theorem resultThenFlag_dt (x : Reg) (r f : Byte) : (s.resultThenFlag x r f).dt = s.dt := rfl
@[simp] theorem resultThenFlag_st (x : Reg) (r f : Byte) : (s.resultThenFlag x r f).st = s.st := rfl
@[simp] theorem resultThenFlag_key (x : Reg) (r f : Byte) : (s.resultThenFlag x r f).key = s.key := rfl
@[simp] theorem resultThenFlag_fb (x : Reg) (r f : Byte) : (s.resultThenFlag x r f).fb = s.fb := rfl
@[simp] theorem resultThenFlag_rd (x : Reg) (r f : Byte) : (s.resultThenFlag x r f).rd = s.rd := rfl
@[simp] theorem resultThenFlag_mem (x : Reg) (r f : Byte) : (s.resultThenFlag x r f).mem = s.mem := rfl
@[simp] theorem resultThenFlag_ctl (x : Reg) (r f : Byte) : (s.resultThenFlag x r f).ctl = s.ctl := rfl
@[simp] theorem resultThenFlag_cause (x : Reg) (r f : Byte) : (s.resultThenFlag x r f).cause = s.cause := rfl
@[simp] theorem resultThenFlag_params (x : Reg) (r f : Byte) : (s.resultThenFlag x r f).params = s.params := rfl
@[simp] theorem resultThenFlag_draws (x : Reg) (r f : Byte) : (s.resultThenFlag x r f).draws = s.draws := rfl
@[simp] theorem resultThenFlag_lastOutcome (x : Reg) (r f : Byte) : (s.resultThenFlag x r f).lastOutcome = s.lastOutcome := rfl

/-! #### flagThenShift -/

@[simp] theorem flagThenShift_v (x : Reg) (f : Byte) (g : Byte → Byte) : (s.flagThenShift x f g).v = (s.v.set flagReg f).set x (g ((s.setFlag f).reg x)) := rfl
@[simp] theorem flagThenShift_pc (x : Reg) (f : Byte) (g : Byte → Byte) : (s.flagThenShift x f g).pc = s.pc := rfl
@[simp] theorem flagThenShift_idx (x : Reg) (f : Byte) (g : Byte → Byte) : (s.flagThenShift x f g).idx = s.idx := rfl
@[simp] theorem flagThenShift_stack (x : Reg) (f : Byte) (g : Byte → Byte) : (s.flagThenShift x f g).stack = s.stack := rfl
@[simp] theorem flagThenShift_sp (x : Reg) (f : Byte) (g : Byte → Byte) : (s.flagThenShift x f g).sp = s.sp := rfl
@[simp] theorem flagThenShift_dt (x : Reg) (f : Byte) (g : Byte → Byte) : (s.flagThenShift x f g).dt = s.dt := rfl
@[simp] theorem flagThenShift_st (x : Reg) (f : Byte) (g : Byte → Byte) : (s.flagThenShift x f g).st = s.st := rfl
@[simp] theorem flagThenShift_key (x : Reg) (f : Byte) (g : Byte → Byte) : (s.flagThenShift x f g).key = s.key := rfl
@[simp] theorem flagThenShift_fb (x : Reg) (f : Byte) (g : Byte → Byte) : (s.flagThenShift x f g).fb = s.fb := rfl
@[simp] theorem flagThenShift_rd (x : Reg) (f : Byte) (g : Byte → Byte) : (s.flagThenShift x f g).rd = s.rd := rfl
@[simp] theorem flagThenShift_mem (x : Reg) (f : Byte) (g : Byte → Byte) : (s.flagThenShift x f g).mem = s.mem := rfl
@[simp] theorem flagThenShift_ctl (x : Reg) (f : Byte) (g : Byte → Byte) : (s.flagThenShift x f g).ctl = s.ctl := rfl
@[simp] theorem flagThenShift_cause (x : Reg) (f : Byte) (g : Byte → Byte) : (s.flagThenShift x f g).cause = s.cause := rfl
@[simp] theorem flagThenShift_params (x : Reg) (f : Byte) (g : Byte → Byte) : (s.flagThenShift x f g).params = s.params := rfl
@[simp] theorem flagThenShift_draws (x : Reg) (f : Byte) (g : Byte → Byte) : (s.flagThenShift x f g).draws = s.draws := rfl
@[simp] theorem flagThenShift_lastOutcome (x : Reg) (f : Byte) (g : Byte → Byte) : (s.flagThenShift x f g).lastOutcome = s.lastOutcome := rfl

/-! #### setIdx -/

@[simp] theorem setIdx_v (a : Word) : (s.setIdx a).v = s.v := rfl
@[simp] theorem setIdx_pc (a : Word) : (s.setIdx a).pc = s.pc := rfl
@[simp] theorem setIdx_idx (a : Word) : (s.setIdx a).idx = a := rfl
@[simp] theorem setIdx_stack (a : Word) : (s.setIdx a).stack = s.stack := rfl
@[simp] theorem setIdx_sp (a : Word) : (s.setIdx a).sp = s.sp := rfl
@[simp] theorem setIdx_dt (a : Word) : (s.setIdx a).dt = s.dt := rfl
@[simp] theorem setIdx_st (a : Word) : (s.setIdx a).st = s.st := rfl
@[simp] theorem setIdx_key (a : Word) : (s.setIdx a).key = s.key := rfl
@[simp] theorem setIdx_fb (a : Word) : (s.setIdx a).fb = s.fb := rfl
@[simp] theorem setIdx_rd (a : Word) : (s.setIdx a).rd = s.rd := rfl
@[simp] theorem setIdx_mem (a : Word) : (s.setIdx a).mem = s.mem := rfl
@[simp] theorem setIdx_ctl (a : Word) : (s.setIdx a).ctl = s.ctl := rfl
@[simp] theorem setIdx_cause (a : Word) : (s.setIdx a).cause = s.cause := rfl
@[simp] theorem setIdx_params (a : Word) : (s.setIdx a).params = s.params := rfl
@[simp] theorem setIdx_draws (a : Word) : (s.setIdx a).draws = s.draws := rfl
@[simp] theorem setIdx_lastOutcome (a : Word) : (s.setIdx a).lastOutcome = s.lastOutcome := rfl

/-! #### setDt -/

@[simp] theorem setDt_v (b : Byte) : (s.setDt b).v = s.v := rfl
@[simp] theorem setDt_pc (b : Byte) : (s.setDt b).pc = s.pc := rfl
@[simp] theorem setDt_idx (b : Byte) : (s.setDt b).idx = s.idx := rfl
@[simp] theorem setDt_stack (b : Byte) : (s.setDt b).stack = s.stack := rfl
@[simp] theorem setDt_sp (b : Byte) : (s.setDt b).sp = s.sp := rfl
@[simp] theorem setDt_dt (b : Byte) : (s.setDt b).dt = b := rfl
@[simp] theorem setDt_st (b : Byte) : (s.setDt b).st = s.st := rfl
@[simp] theorem setDt_key (b : Byte) : (s.setDt b).key = s.key := rfl
@[simp] theorem setDt_fb (b : Byte) : (s.setDt b).fb = s.fb := rfl
@[simp] theorem setDt_rd (b : Byte) : (s.setDt b).rd = s.rd := rfl
@[simp] theorem setDt_mem (b : Byte) : (s.setDt b).mem = s.mem := rfl
@[simp] theorem setDt_ctl (b : Byte) : (s.setDt b).ctl = s.ctl := rfl
@[simp] theorem setDt_cause (b : Byte) : (s.setDt b).cause = s.cause := rfl
@[simp] theorem setDt_params (b : Byte) : (s.setDt b).params = s.params := rfl
@[simp] theorem setDt_draws (b : Byte) : (s.setDt b).draws = s.draws := rfl
@[simp] theorem setDt_lastOutcome (b : Byte) : (s.setDt b).lastOutcome = s.lastOutcome := rfl

/-! #### setSt -/

@[simp] theorem setSt_v (b : Byte) : (s.setSt b).v = s.v := rfl
@[simp] theorem setSt_pc (b : Byte) : (s.setSt b).pc = s.pc := rfl
@[simp] theorem setSt_idx (b : Byte) : (s.setSt b).idx = s.idx := rfl
@[simp] theorem setSt_stack (b : Byte) : (s.setSt b).stack = s.stack := rfl
@[simp] theorem setSt_sp (b : Byte) : (s.setSt b).sp = s.sp := rfl
@[simp] theorem setSt_dt (b : Byte) : (s.setSt b).dt = s.dt := rfl
@[simp] theorem setSt_st (b : Byte) : (s.setSt b).st = b := rfl
@[simp] theorem setSt_key (b : Byte) : (s.setSt b).key = s.key := rfl
@[simp] theorem setSt_fb (b : Byte) : (s.setSt b).fb = s.fb := rfl
@[simp] theorem setSt_rd (b : Byte) : (s.setSt b).rd = s.rd := rfl
@[simp] theorem setSt_mem (b : Byte) : (s.setSt b).mem = s.mem := rfl
@[simp] theorem setSt_ctl (b : Byte) : (s.setSt b).ctl = s.ctl := rfl
@[simp] theorem setSt_cause (b : Byte) : (s.setSt b).cause = s.cause := rfl
@[simp] theorem setSt_params (b : Byte) : (s.setSt b).params = s.params := rfl
@[simp] theorem setSt_draws (b : Byte) : (s.setSt b).draws = s.draws := rfl
@[simp] theorem setSt_lastOutcome (b : Byte) : (s.setSt b).lastOutcome = s.lastOutcome := rfl

/-! #### loadRegsFrom -/

@[simp] theorem loadRegsFrom_pc (a : Nat) (x : Reg) : (s.loadRegsFrom a x).pc = s.pc := rfl
@[simp] theorem loadRegsFrom_idx (a : Nat) (x : Reg) : (s.loadRegsFrom a x).idx = s.idx := rfl
@[simp] theorem loadRegsFrom_stack (a : Nat) (x : Reg) : (s.loadRegsFrom a x).stack = s.stack := rfl
@[simp] theorem loadRegsFrom_sp (a : Nat) (x : Reg) : (s.loadRegsFrom a x).sp = s.sp := rfl
@[simp] theorem loadRegsFrom_dt (a : Nat) (x : Reg) : (s.loadRegsFrom a x).dt = s.dt := rfl
@[simp] theorem loadRegsFrom_st (a : Nat) (x : Reg) : (s.loadRegsFrom a x).st = s.st := rfl
@[simp] theorem loadRegsFrom_key (a : Nat) (x : Reg) : (s.loadRegsFrom a x).key = s.key := rfl
@[simp] theorem loadRegsFrom_fb (a : Nat) (x : Reg) : (s.loadRegsFrom a x).fb = s.fb := rfl
@[simp] theorem loadRegsFrom_rd (a : Nat) (x : Reg) : (s.loadRegsFrom a x).rd = s.rd := rfl
@[simp] theorem loadRegsFrom_mem (a : Nat) (x : Reg) : (s.loadRegsFrom a x).mem = s.mem := rfl
@[simp] theorem loadRegsFrom_ctl (a : Nat) (x : Reg) : (s.loadRegsFrom a x).ctl = s.ctl := rfl
@[simp] theorem loadRegsFrom_cause (a : Nat) (x : Reg) : (s.loadRegsFrom a x).cause = s.cause := rfl
@[simp] theorem loadRegsFrom_params (a : Nat) (x : Reg) : (s.loadRegsFrom a x).params = s.params := rfl
@[simp] theorem loadRegsFrom_draws (a : Nat) (x : Reg) : (s.loadRegsFrom a x).draws = s.draws := rfl
@[simp] theorem loadRegsFrom_lastOutcome (a : Nat) (x : Reg) : (s.loadRegsFrom a x).lastOutcome = s.lastOutcome := rfl

/-! #### storeBytes -/

@[simp] theorem storeBytes_v (a : Nat) (bs : List Byte) : (s.storeBytes a bs).v = s.v := rfl
@[simp] theorem storeBytes_pc (a : Nat) (bs : List Byte) : (s.storeBytes a bs).pc = s.pc := rfl
@[simp] theorem storeBytes_idx (a : Nat) (bs : List Byte) : (s.storeBytes a bs).idx = s.idx := rfl
@[simp] theorem storeBytes_stack (a : Nat) (bs : List Byte) : (s.storeBytes a bs).stack = s.stack := rfl
@[simp] theorem storeBytes_sp (a : Nat) (bs : List Byte) : (s.storeBytes a bs).sp = s.sp := rfl
@[simp] theorem storeBytes_dt (a : Nat) (bs : List Byte) : (s.storeBytes a bs).dt = s.dt := rfl
@[simp] theorem storeBytes_st (a : Nat) (bs : List Byte) : (s.storeBytes a bs).st = s.st := rfl
@[simp] theorem storeBytes_key (a : Nat) (bs : List Byte) : (s.storeBytes a bs).key = s.key := rfl
@[simp] theorem storeBytes_fb (a : Nat) (bs : List Byte) : (s.storeBytes a bs).fb = s.fb := rfl
@[simp] theorem storeBytes_rd (a : Nat) (bs : List Byte) : (s.storeBytes a bs).rd = s.rd := rfl
@[simp] theorem storeBytes_mem (a : Nat) (bs : List Byte) : (s.storeBytes a bs).mem = Memory.writeBytes s.mem a bs := rfl
@[simp] theorem storeBytes_ctl (a : Nat) (bs : List Byte) : (s.storeBytes a bs).ctl = s.ctl := rfl
@[simp] theorem storeBytes_cause (a : Nat) (bs : List Byte) : (s.storeBytes a bs).cause = s.cause := rfl
@[simp] theorem storeBytes_params (a : Nat) (bs : List Byte) : (s.storeBytes a bs).params = s.params := rfl
@[simp] theorem storeBytes_draws (a : Nat) (bs : List Byte) : (s.storeBytes a bs).draws = s.draws := rfl
@[simp] theorem storeBytes_lastOutcome (a : Nat) (bs : List Byte) : (s.storeBytes a bs).lastOutcome = s.lastOutcome := rfl

/-! #### drawn -/

@[simp] theorem drawn_v (n : Nat) : (s.drawn n).v = s.v := rfl
@[simp] theorem drawn_pc (n : Nat) : (s.drawn n).pc = s.pc := rfl
@[simp] theorem drawn_idx (n : Nat) : (s.drawn n).idx = s.idx := rfl
@[simp] theorem drawn_stack (n : Nat) : (s.drawn n).stack = s.stack := rfl
@[simp] theorem drawn_sp (n : Nat) : (s.drawn n).sp = s.sp := rfl
@[simp] theorem drawn_dt (n : Nat) : (s.drawn n).dt = s.dt := rfl
@[simp] theorem drawn_st (n : Nat) : (s.drawn n).st = s.st := rfl
@[simp] theorem drawn_key (n : Nat) : (s.drawn n).key = s.key := rfl
@[simp] theorem drawn_fb (n : Nat) : (s.drawn n).fb = s.fb := rfl
@[simp] theorem drawn_rd (n : Nat) : (s.drawn n).rd = s.rd := rfl
@[simp] theorem drawn_mem (n : Nat) : (s.drawn n).mem = s.mem := rfl
@[simp] theorem drawn_ctl (n : Nat) : (s.drawn n).ctl = s.ctl := rfl
@[simp] theorem drawn_cause (n : Nat) : (s.drawn n).cause = s.cause := rfl
@[simp] theorem drawn_params (n : Nat) : (s.drawn n).params = s.params := rfl
@[simp] theorem drawn_draws (n : Nat) : (s.drawn n).draws = s.draws + n := rfl
@[simp] theorem drawn_lastOutcome (n : Nat) : (s.drawn n).lastOutcome = s.lastOutcome := rfl

/-! #### show -/

@[simp] theorem show_v (fb : FrameBuffer) : (s.show fb).v = s.v := rfl
@[simp] theorem show_pc (fb : FrameBuffer) : (s.show fb).pc = s.pc := rfl
@[simp] theorem show_idx (fb : FrameBuffer) : (s.show fb).idx = s.idx := rfl
@[simp] theorem show_stack (fb : FrameBuffer) : (s.show fb).stack = s.stack := rfl
@[simp] theorem show_sp (fb : FrameBuffer) : (s.show fb).sp = s.sp := rfl
@[simp] theorem show_dt (fb : FrameBuffer) : (s.show fb).dt = s.dt := rfl
@[simp] theorem show_st (fb : FrameBuffer) : (s.show fb).st = s.st := rfl
@[simp] theorem show_key (fb : FrameBuffer) : (s.show fb).key = s.key := rfl
@[simp] theorem show_fb (fb : FrameBuffer) : (s.show fb).fb = fb := rfl
@[simp] theorem show_rd (fb : FrameBuffer) : (s.show fb).rd = true := rfl
@[simp] theorem show_mem (fb : FrameBuffer) : (s.show fb).mem = s.mem := rfl
@[simp] theorem show_ctl (fb : FrameBuffer) : (s.show fb).ctl = s.ctl := rfl
@[simp] theorem show_cause (fb : FrameBuffer) : (s.show fb).cause = s.cause := rfl
@[simp] theorem show_params (fb : FrameBuffer) : (s.show fb).params = s.params := rfl
@[simp] theorem show_draws (fb : FrameBuffer) : (s.show fb).draws = s.draws := rfl
@[simp] theorem show_lastOutcome (fb : FrameBuffer) : (s.show fb).lastOutcome = s.lastOutcome := rfl

/-! #### complete -/

@[simp] theorem complete_v (a : Word) : (s.complete a).v = s.v := rfl
@[simp] theorem complete_pc (a : Word) : (s.complete a).pc = a := rfl
@[simp] theorem complete_idx (a : Word) : (s.complete a).idx = s.idx := rfl
@[simp] theorem complete_stack (a : Word) : (s.complete a).stack = s.stack := rfl
@[simp] theorem complete_sp (a : Word) : (s.complete a).sp = s.sp := rfl
@[simp] theorem complete_dt (a : Word) : (s.complete a).dt = s.dt := rfl
@[simp] theorem complete_st (a : Word) : (s.complete a).st = s.st := rfl
@[simp] theorem complete_key (a : Word) : (s.complete a).key = s.key := rfl
@[simp] theorem complete_fb (a : Word) : (s.complete a).fb = s.fb := rfl
@[simp] theorem complete_rd (a : Word) : (s.complete a).rd = s.rd := rfl
@[simp] theorem complete_mem (a : Word) : (s.complete a).mem = s.mem := rfl
@[simp] theorem complete_ctl (a : Word) : (s.complete a).ctl = .ready := rfl
@[simp] theorem complete_cause (a : Word) : (s.complete a).cause = s.cause := rfl
@[simp] theorem complete_params (a : Word) : (s.complete a).params = s.params := rfl
@[simp] theorem complete_draws (a : Word) : (s.complete a).draws = s.draws := rfl
@[simp] theorem complete_lastOutcome (a : Word) : (s.complete a).lastOutcome = some .executed := rfl

/-! #### advance -/

@[simp] theorem advance_v : s.advance.v = s.v := rfl
@[simp] theorem advance_pc : s.advance.pc = s.pc + 2 := rfl
@[simp] theorem advance_idx : s.advance.idx = s.idx := rfl
@[simp] theorem advance_stack : s.advance.stack = s.stack := rfl
@[simp] theorem advance_sp : s.advance.sp = s.sp := rfl
@[simp] theorem advance_dt : s.advance.dt = s.dt := rfl
@[simp] theorem advance_st : s.advance.st = s.st := rfl
@[simp] theorem advance_key : s.advance.key = s.key := rfl
@[simp] theorem advance_fb : s.advance.fb = s.fb := rfl
@[simp] theorem advance_rd : s.advance.rd = s.rd := rfl
@[simp] theorem advance_mem : s.advance.mem = s.mem := rfl
@[simp] theorem advance_ctl : s.advance.ctl = .ready := rfl
@[simp] theorem advance_cause : s.advance.cause = s.cause := rfl
@[simp] theorem advance_params : s.advance.params = s.params := rfl
@[simp] theorem advance_draws : s.advance.draws = s.draws := rfl
@[simp] theorem advance_lastOutcome : s.advance.lastOutcome = some .executed := rfl

/-! #### skipIf -/

@[simp] theorem skipIf_v (c : Bool) : (s.skipIf c).v = s.v := rfl
@[simp] theorem skipIf_pc (c : Bool) : (s.skipIf c).pc = if c then s.pc + 4 else s.pc + 2 := rfl
@[simp] theorem skipIf_idx (c : Bool) : (s.skipIf c).idx = s.idx := rfl
@[simp] theorem skipIf_stack (c : Bool) : (s.skipIf c).stack = s.stack := rfl
@[simp] theorem skipIf_sp (c : Bool) : (s.skipIf c).sp = s.sp := rfl
@[simp] theorem skipIf_dt (c : Bool) : (s.skipIf c).dt = s.dt := rfl
@[simp] theorem skipIf_st (c : Bool) : (s.skipIf c).st = s.st := rfl
@[simp] theorem skipIf_key (c : Bool) : (s.skipIf c).key = s.key := rfl
@[simp] theorem skipIf_fb (c : Bool) : (s.skipIf c).fb = s.fb := rfl
@[simp] theorem skipIf_rd (c : Bool) : (s.skipIf c).rd = s.rd := rfl
@[simp] theorem skipIf_mem (c : Bool) : (s.skipIf c).mem = s.mem := rfl
@[simp] theorem skipIf_ctl (c : Bool) : (s.skipIf c).ctl = .ready := rfl
@[simp] theorem skipIf_cause (c : Bool) : (s.skipIf c).cause = s.cause := rfl
@[simp] theorem skipIf_params (c : Bool) : (s.skipIf c).params = s.params := rfl
@[simp] theorem skipIf_draws (c : Bool) : (s.skipIf c).draws = s.draws := rfl
@[simp] theorem skipIf_lastOutcome (c : Bool) : (s.skipIf c).lastOutcome = some .executed := rfl

/-! #### block -/

@[simp] theorem block_v : s.block.v = s.v := rfl
@[simp] theorem block_pc : s.block.pc = s.pc := rfl
@[simp] theorem block_idx : s.block.idx = s.idx := rfl
@[simp] theorem block_stack : s.block.stack = s.stack := rfl
@[simp] theorem block_sp : s.block.sp = s.sp := rfl
@[simp] theorem block_dt : s.block.dt = s.dt := rfl
@[simp] theorem block_st : s.block.st = s.st := rfl
@[simp] theorem block_key : s.block.key = s.key := rfl
@[simp] theorem block_fb : s.block.fb = s.fb := rfl
@[simp] theorem block_rd : s.block.rd = s.rd := rfl
@[simp] theorem block_mem : s.block.mem = s.mem := rfl
@[simp] theorem block_ctl : s.block.ctl = .awaitKey := rfl
@[simp] theorem block_cause : s.block.cause = s.cause := rfl
@[simp] theorem block_params : s.block.params = s.params := rfl
@[simp] theorem block_draws : s.block.draws = s.draws := rfl
@[simp] theorem block_lastOutcome : s.block.lastOutcome = some .blocked := rfl

/-! #### raiseHalt -/

@[simp] theorem raiseHalt_v (c : HaltCause) : (s.raiseHalt c).v = s.v := rfl
@[simp] theorem raiseHalt_pc (c : HaltCause) : (s.raiseHalt c).pc = s.pc := rfl
@[simp] theorem raiseHalt_idx (c : HaltCause) : (s.raiseHalt c).idx = s.idx := rfl
@[simp] theorem raiseHalt_stack (c : HaltCause) : (s.raiseHalt c).stack = s.stack := rfl
@[simp] theorem raiseHalt_sp (c : HaltCause) : (s.raiseHalt c).sp = s.sp := rfl
@[simp] theorem raiseHalt_dt (c : HaltCause) : (s.raiseHalt c).dt = s.dt := rfl
@[simp] theorem raiseHalt_st (c : HaltCause) : (s.raiseHalt c).st = s.st := rfl
@[simp] theorem raiseHalt_key (c : HaltCause) : (s.raiseHalt c).key = s.key := rfl
@[simp] theorem raiseHalt_fb (c : HaltCause) : (s.raiseHalt c).fb = s.fb := rfl
@[simp] theorem raiseHalt_rd (c : HaltCause) : (s.raiseHalt c).rd = s.rd := rfl
@[simp] theorem raiseHalt_mem (c : HaltCause) : (s.raiseHalt c).mem = s.mem := rfl
@[simp] theorem raiseHalt_ctl (c : HaltCause) : (s.raiseHalt c).ctl = .halted := rfl
@[simp] theorem raiseHalt_cause (c : HaltCause) : (s.raiseHalt c).cause = some c := rfl
@[simp] theorem raiseHalt_params (c : HaltCause) : (s.raiseHalt c).params = s.params := rfl
@[simp] theorem raiseHalt_draws (c : HaltCause) : (s.raiseHalt c).draws = s.draws := rfl
@[simp] theorem raiseHalt_lastOutcome (c : HaltCause) : (s.raiseHalt c).lastOutcome = some (.halted (some c)) := rfl

/-! #### stayHalted -/

@[simp] theorem stayHalted_v : s.stayHalted.v = s.v := rfl
@[simp] theorem stayHalted_pc : s.stayHalted.pc = s.pc := rfl
@[simp] theorem stayHalted_idx : s.stayHalted.idx = s.idx := rfl
@[simp] theorem stayHalted_stack : s.stayHalted.stack = s.stack := rfl
@[simp] theorem stayHalted_sp : s.stayHalted.sp = s.sp := rfl
@[simp] theorem stayHalted_dt : s.stayHalted.dt = s.dt := rfl
@[simp] theorem stayHalted_st : s.stayHalted.st = s.st := rfl
@[simp] theorem stayHalted_key : s.stayHalted.key = s.key := rfl
@[simp] theorem stayHalted_fb : s.stayHalted.fb = s.fb := rfl
@[simp] theorem stayHalted_rd : s.stayHalted.rd = s.rd := rfl
@[simp] theorem stayHalted_mem : s.stayHalted.mem = s.mem := rfl
@[simp] theorem stayHalted_ctl : s.stayHalted.ctl = s.ctl := rfl
@[simp] theorem stayHalted_cause : s.stayHalted.cause = s.cause := rfl
@[simp] theorem stayHalted_params : s.stayHalted.params = s.params := rfl
@[simp] theorem stayHalted_draws : s.stayHalted.draws = s.draws := rfl
@[simp] theorem stayHalted_lastOutcome : s.stayHalted.lastOutcome = some (.halted s.cause) := rfl

end Sys2Proof.Machine.State
end

