-- ==== Sys2Proof/Laws/Registers.lean ====
section
/-! SUPPORT. What reading a register gives after each operation that writes registers, and what Push and Pop do. -/

namespace Sys2Proof.Machine.State

variable (s : State)

/-- Writing a register changes that register and no other. -/
@[simp] theorem reg_setReg (x y : Reg) (b : Byte) : (s.setReg x b).reg y = if y = x then b else s.reg y := by
  simp only [reg, setReg, Fin.getElem_fin, Vector.getElem_set, Fin.ext_iff, eq_comm]

@[simp] theorem reg_setFlag (y : Reg) (b : Byte) : (s.setFlag b).reg y = if y = flagReg then b else s.reg y :=
  s.reg_setReg flagReg y b

/-- Result then flag: with x = 15 the flag stands (R166, R167, R169). -/
@[simp] theorem reg_resultThenFlag (x y : Reg) (r f : Byte) :
    (s.resultThenFlag x r f).reg y = if y = flagReg then f else if y = x then r else s.reg y := by
  simp [resultThenFlag]

/-- Flag then shift: with x = 15 the shifted flag stands (R168, R170). -/
@[simp] theorem reg_flagThenShift (x y : Reg) (f : Byte) (g : Byte → Byte) :
    (s.flagThenShift x f g).reg y =
      if y = x then g (if x = flagReg then f else s.reg x) else if y = flagReg then f else s.reg y := by
  simp [flagThenShift]

/-- A block load writes V[0] to V[x] and no register above (R195). -/
@[simp] theorem reg_loadRegsFrom (a : Nat) (x y : Reg) :
    (s.loadRegsFrom a x).reg y = if y ≤ x then Memory.read s.mem (a + y.val) else s.reg y := by
  simp [reg, loadRegsFrom]

@[simp] theorem reg_setIdx (a : Word) (y : Reg) : (s.setIdx a).reg y = s.reg y := rfl
@[simp] theorem reg_setDt (b : Byte) (y : Reg) : (s.setDt b).reg y = s.reg y := rfl
@[simp] theorem reg_setSt (b : Byte) (y : Reg) : (s.setSt b).reg y = s.reg y := rfl
@[simp] theorem reg_storeBytes (a : Nat) (bs : List Byte) (y : Reg) : (s.storeBytes a bs).reg y = s.reg y := rfl
@[simp] theorem reg_drawn (n : Nat) (y : Reg) : (s.drawn n).reg y = s.reg y := rfl
@[simp] theorem reg_show (fb : FrameBuffer) (y : Reg) : (s.show fb).reg y = s.reg y := rfl
@[simp] theorem reg_complete (a : Word) (y : Reg) : (s.complete a).reg y = s.reg y := rfl
@[simp] theorem reg_advance (y : Reg) : s.advance.reg y = s.reg y := rfl
@[simp] theorem reg_skipIf (c : Bool) (y : Reg) : (s.skipIf c).reg y = s.reg y := rfl
@[simp] theorem reg_block (y : Reg) : s.block.reg y = s.reg y := rfl
@[simp] theorem reg_raiseHalt (c : HaltCause) (y : Reg) : (s.raiseHalt c).reg y = s.reg y := rfl

/-- The registers determine the vector that holds them. -/
theorem v_ext {s t : State} (h : ∀ x : Reg, s.reg x = t.reg x) : s.v = t.v :=
  Vector.ext fun i hi => h ⟨i, hi⟩

/-- V[0] to V[x] as store-regs writes them: x + 1 bytes, byte k being V[k] (R194). -/
@[simp] theorem length_regsUpTo (x : Reg) : (s.regsUpTo x).length = x.val + 1 := by
  simp [regsUpTo]

theorem getElem_regsUpTo (x : Reg) (k : Nat) (h : k < (s.regsUpTo x).length) :
    (s.regsUpTo x)[k] = s.reg ⟨k, by have := x.isLt; rw [length_regsUpTo] at h; omega⟩ := by
  simp [regsUpTo, reg]

/-- Push either finds SP = 16 or stores at STACK[SP] and counts up (R33). -/
theorem push_cases (w : Word) :
    (s.sp.val = 16 ∧ s.push w = .error .stackOverflow) ∨
    (∃ h : s.sp.val < 16, s.push w =
      .ok { s with stack := s.stack.set s.sp.val w h, sp := ⟨s.sp.val + 1, Nat.succ_lt_succ h⟩ }) := by
  by_cases h : s.sp.val < 16
  · exact .inr ⟨h, by simp [push, h]⟩
  · exact .inl ⟨by have := s.sp.isLt; omega, by simp [push, h]⟩

/-- Pop either finds SP = 0 or yields STACK[SP - 1] and counts down, leaving every entry (R34). -/
theorem pop_cases :
    (s.sp.val = 0 ∧ s.pop = .error .stackUnderflow) ∨
    (∃ h : s.sp.val - 1 < 16, s.sp.val ≠ 0 ∧ s.pop =
      .ok (s.stack[s.sp.val - 1], { s with sp := ⟨s.sp.val - 1, Nat.lt_succ_of_lt h⟩ })) := by
  by_cases h : s.sp.val = 0
  · exact .inl ⟨h, by simp [pop, h]⟩
  · exact .inr ⟨by have := s.sp.isLt; omega, h, by simp [pop, h]⟩

end Sys2Proof.Machine.State
end

