-- ==== Sys2Proof/Laws/Exec.lean ====
section
/-! SUPPORT. What exec, fetch, step and the events can do, said once. -/

namespace Sys2Proof.Machine

/-- The instruction completed: the machine is READY and reports Executed, and CAUSE, the keys and the parameters are as
before (40_step_cycle.md R125, R128). -/
structure Completed (s t : State) : Prop where
  ctl : t.ctl = .ready
  lastOutcome : t.lastOutcome = some .executed
  cause : t.cause = s.cause
  key : t.key = s.key
  params : t.params = s.params

/-- What executing an instruction can do: complete, block, or raise a halt (40_step_cycle.md R124 to R127). -/
theorem exec_cases (i : Instr) (s : State) :
    ∃ t, exec i s = .next t ∧ (Completed s t ∨ t = s.block ∨ ∃ c, t = s.raiseHalt c) := by
  cases i with
  | ret =>
    simp only [exec, execRet]
    rcases s.pop_cases with ⟨-, h⟩ | ⟨_, _, h⟩
    · rw [h]; exact ⟨_, rfl, .inr (.inr ⟨_, rfl⟩)⟩
    · rw [h]; exact ⟨_, rfl, .inl ⟨rfl, rfl, rfl, rfl, rfl⟩⟩
  | call nnn =>
    simp only [exec, execCall]
    rcases s.push_cases s.pc with ⟨-, h⟩ | ⟨_, h⟩
    · rw [h]; exact ⟨_, rfl, .inr (.inr ⟨_, rfl⟩)⟩
    · rw [h]; exact ⟨_, rfl, .inl ⟨rfl, rfl, rfl, rfl, rfl⟩⟩
  | draw x y n =>
    simp only [exec, execDraw]; split
    · exact ⟨_, rfl, .inl ⟨rfl, rfl, rfl, rfl, rfl⟩⟩
    · exact ⟨_, rfl, .inr (.inr ⟨_, rfl⟩)⟩
  | storeBcd x =>
    simp only [exec, execStoreBcd]; split
    · exact ⟨_, rfl, .inl ⟨rfl, rfl, rfl, rfl, rfl⟩⟩
    · exact ⟨_, rfl, .inr (.inr ⟨_, rfl⟩)⟩
  | storeRegs x =>
    simp only [exec, execStoreRegs]; split
    · exact ⟨_, rfl, .inl ⟨rfl, rfl, rfl, rfl, rfl⟩⟩
    · exact ⟨_, rfl, .inr (.inr ⟨_, rfl⟩)⟩
  | loadRegs x =>
    simp only [exec, execLoadRegs]; split
    · exact ⟨_, rfl, .inl ⟨rfl, rfl, rfl, rfl, rfl⟩⟩
    · exact ⟨_, rfl, .inr (.inr ⟨_, rfl⟩)⟩
  | skipKeyPressed x =>
    simp only [exec, execSkipKeyPressed]; split
    · exact ⟨_, rfl, .inr (.inr ⟨_, rfl⟩)⟩
    · exact ⟨_, rfl, .inl ⟨rfl, rfl, rfl, rfl, rfl⟩⟩
  | skipKeyNotPressed x =>
    simp only [exec, execSkipKeyNotPressed]; split
    · exact ⟨_, rfl, .inr (.inr ⟨_, rfl⟩)⟩
    · exact ⟨_, rfl, .inl ⟨rfl, rfl, rfl, rfl, rfl⟩⟩
  | waitKey x =>
    simp only [exec, execWaitKey]; split
    · exact ⟨_, rfl, .inr (.inl rfl)⟩
    · exact ⟨_, rfl, .inl ⟨rfl, rfl, rfl, rfl, rfl⟩⟩
  | _ => exact ⟨_, rfl, .inl ⟨rfl, rfl, rfl, rfl, rfl⟩⟩

/-- Memory after an instruction: as before, or a block of bytes stored inside memory (store-bcd, store-regs). -/
theorem exec_mem_cases {i : Instr} {s t : State} (h : exec i s = .next t) :
    t.mem = s.mem ∨ ∃ a bs, a + List.length bs ≤ 4096 ∧ t.mem = Memory.writeBytes s.mem a bs := by
  cases i with
  | ret =>
    simp only [exec, execRet] at h
    rcases s.pop_cases with ⟨-, e⟩ | ⟨_, _, e⟩
    · rw [e] at h; cases h; exact .inl rfl
    · rw [e] at h; cases h; exact .inl rfl
  | call nnn =>
    simp only [exec, execCall] at h
    rcases s.push_cases s.pc with ⟨-, e⟩ | ⟨_, e⟩
    · rw [e] at h; cases h; exact .inl rfl
    · rw [e] at h; cases h; exact .inl rfl
  | storeBcd x =>
    simp only [exec, execStoreBcd] at h
    split at h <;> cases h
    · rename_i hm; rw [inMemory_iff] at hm
      exact .inr ⟨_, _, by simp [State.dataAddr, bcdDigits]; omega, rfl⟩
    · exact .inl rfl
  | storeRegs x =>
    simp only [exec, execStoreRegs] at h
    split at h <;> cases h
    · rename_i hm; rw [inMemory_iff] at hm
      exact .inr ⟨_, _, by simp [State.dataAddr]; omega, rfl⟩
    · exact .inl rfl
  | draw x y n => simp only [exec, execDraw] at h; split at h <;> (cases h; exact .inl rfl)
  | loadRegs x => simp only [exec, execLoadRegs] at h; split at h <;> (cases h; exact .inl rfl)
  | skipKeyPressed x => simp only [exec, execSkipKeyPressed] at h; split at h <;> (cases h; exact .inl rfl)
  | skipKeyNotPressed x => simp only [exec, execSkipKeyNotPressed] at h; split at h <;> (cases h; exact .inl rfl)
  | waitKey x =>
    simp only [exec, execWaitKey] at h
    split at h <;> (cases h; exact .inl rfl)
  | _ => cases h; exact .inl rfl

/-- What fetch can do, in the order of 60_exceptions.md R255: HALTED, FetchBounds, an unknown word, an instruction. -/
theorem fetch_cases (s : State) :
    (s.ctl = .halted ∧ fetch s = .stop s.stayHalted) ∨
    (s.ctl ≠ .halted ∧ 0xFFE < s.pc.toNat ∧ fetch s = .stop (s.raiseHalt .fetchBounds)) ∨
    (s.ctl ≠ .halted ∧ s.pc.toNat ≤ 0xFFE ∧ (∃ e, decodeWord s.fetchWord = .error e) ∧
      fetch s = .stop (s.unknown s.fetchWord)) ∨
    (s.ctl ≠ .halted ∧ s.pc.toNat ≤ 0xFFE ∧ ∃ i, decodeWord s.fetchWord = .ok i ∧ fetch s = .run i) := by
  by_cases hc : s.ctl = .halted
  · exact .inl ⟨hc, by simp [fetch, hc]⟩
  by_cases hp : s.pc.toNat ≤ 0xFFE
  · cases hd : decodeWord s.fetchWord with
    | error e =>
      refine .inr (.inr (.inl ⟨hc, hp, ⟨e, rfl⟩, ?_⟩))
      rw [State.fetchWord] at hd
      simp [fetch, hc, State.fetchable, hp, State.fetchBytes, decode, hd, Except.map]
    | ok i =>
      refine .inr (.inr (.inr ⟨hc, hp, i, rfl, ?_⟩))
      rw [State.fetchWord] at hd
      simp [fetch, hc, State.fetchable, hp, State.fetchBytes, decode, hd, Except.map]
  · exact .inr (.inl ⟨hc, by omega, by simp [fetch, hc, State.fetchable, hp]⟩)

/-- An unknown word advances and is reported, or halts; nothing else (60_exceptions.md R254). -/
theorem unknown_cases (s : State) (w : Word) :
    (s.params.unknownPolicy = .skip ∧ s.unknown w =
      { s with pc := s.pc + 2, ctl := .ready, lastOutcome := some (.unknownSkipped w s.pc) }) ∨
    (s.params.unknownPolicy = .halt ∧ s.unknown w = s.raiseHalt .unknownInstruction) := by
  rw [State.unknown]
  cases s.params.unknownPolicy
  · exact .inl ⟨rfl, rfl⟩
  · exact .inr ⟨rfl, rfl⟩

/-- What a step can do, said once: every step answers a next state. -/
theorem step_cases (s : State) :
    (s.ctl = .halted ∧ step s = .next s.stayHalted) ∨
    (s.ctl ≠ .halted ∧ ∃ c, step s = .next (s.raiseHalt c)) ∨
    (s.ctl ≠ .halted ∧ s.params.unknownPolicy = .skip ∧ step s =
      .next { s with pc := s.pc + 2, ctl := .ready, lastOutcome := some (.unknownSkipped s.fetchWord s.pc) }) ∨
    (s.ctl ≠ .halted ∧ ∃ i, decodeWord s.fetchWord = .ok i ∧ step s = exec i s) := by
  rcases fetch_cases s with ⟨hc, h⟩ | ⟨hc, -, h⟩ | ⟨hc, -, -, h⟩ | ⟨hc, -, i, hd, h⟩
  · exact .inl ⟨hc, by simp [step, h]⟩
  · exact .inr (.inl ⟨hc, _, by rw [step, h]⟩)
  · rcases unknown_cases s s.fetchWord with ⟨hp, e⟩ | ⟨_, e⟩
    · exact .inr (.inr (.inl ⟨hc, hp, by simp only [step, h, e]⟩))
    · exact .inr (.inl ⟨hc, .unknownInstruction, by simp only [step, h, e]⟩)
  · exact .inr (.inr (.inr ⟨hc, i, hd, by simp only [step, h]⟩))

/-- A load writes the image whole or changes nothing (70_reset_and_hazards.md R296). -/
theorem load_cases (s : State) (bytes : List Byte) (origin : Nat) :
    (origin + bytes.length ≤ 4096 ∧ s.load bytes origin = (.loaded, s.storeBytes origin bytes)) ∨
    (4096 < origin + bytes.length ∧ s.load bytes origin = (.imageTooLarge, s)) := by
  by_cases h : imageFits bytes origin = true
  · refine .inl ⟨?_, by simp [State.load, h]⟩
    simp only [imageFits, Bool.and_eq_true, decide_eq_true_eq] at h; omega
  · refine .inr ⟨?_, by simp [State.load, h]⟩
    simp only [imageFits, Bool.and_eq_true, decide_eq_true_eq, not_and] at h; omega

end Sys2Proof.Machine
end

