-- ==== Sys2Proof/Laws/Keys.lean ====
section
/-! SUPPORT. The keys down, and which of them wait-key picks (45_timers_input.md R235). -/

namespace Sys2Proof.Machine

@[simp] theorem mem_pressedKeys (key : Vector Bool 16) (k : Key) : k ∈ pressedKeys key ↔ key[k] = true := by
  simp [pressedKeys]

/-- The keys down are listed lowest first. -/
theorem pressedKeys_sorted (key : Vector Bool 16) : (pressedKeys key).Pairwise (· < ·) :=
  (List.pairwise_lt_finRange 16).filter _

/-- Whatever WAITKEY_PICK is, the key picked is one of those down. -/
theorem pickKey_mem (pick : WaitKeyPick) (draw : Nat) (k : Key) (ks : List Key) : pickKey pick draw k ks ∈ k :: ks := by
  cases pick with
  | lowest => exact List.mem_cons_self
  | highest => rw [pickKey, List.getLastD_cons]; exact List.getLastD_mem_cons
  | any =>
    have h : Config.anyPick draw % (ks.length + 1) < (k :: ks).length := Nat.mod_lt _ (Nat.succ_pos _)
    rw [pickKey, List.getD_eq_getElem _ _ h]
    exact List.getElem_mem h

/-- Under `lowest` no key down lies below the one picked. -/
theorem pickKey_lowest_le {k j : Key} {ks : List Key} (draw : Nat) (hs : (k :: ks).Pairwise (· < ·)) (hj : j ∈ k :: ks) :
    pickKey .lowest draw k ks ≤ j := by
  rcases List.mem_cons.mp hj with rfl | hj
  · exact le_refl _
  · exact le_of_lt (List.rel_of_pairwise_cons hs hj)

/-- Under `highest` no key down lies above the one picked. -/
theorem le_pickKey_highest {k j : Key} {ks : List Key} (draw : Nat) (hs : (k :: ks).Pairwise (· < ·))
    (hj : j ∈ k :: ks) : j ≤ pickKey .highest draw k ks := by
  rw [pickKey, List.getLastD_cons]
  induction ks generalizing k j with
  | nil => simp_all
  | cons a as ih =>
    rw [List.getLastD_cons]
    have ha := List.rel_of_pairwise_cons hs List.mem_cons_self
    rcases List.mem_cons.mp hj with rfl | hj
    · exact le_trans (le_of_lt ha) (ih hs.tail List.mem_cons_self)
    · exact ih hs.tail hj

end Sys2Proof.Machine
end

