-- ==== Sys2Proof/Laws/PerInstr.lean ====
section
/-! SUPPORT. The family TableRow, one lemma per instruction: its encoded word lies in its own row of the opcode table,
with every don't-care bit 0 (30_encoding.md R95 to R100, R104). -/

namespace Sys2Proof.Laws.TableRow

/-- The instruction's word has the row's pattern under the row's mask, and 0 in the row's don't-care bits. -/
def Statement (i : Instr) : Prop := i.row.holds (encodeWord i) = true ∧ encodeWord i &&& i.row.dontCare = 0

theorem clearScreen : Statement (.clearScreen) := by
  unfold Statement; decide

theorem ret : Statement (.ret) := by
  unfold Statement; decide

theorem jump (nnn : BitVec 12) : Statement (.jump nnn) := by
  refine ⟨(holds_F000 _ _ _ _).mpr ?_, BitVec.and_zero⟩
  rw [encodeWord, toNat_encodeNNN]; simp; omega

theorem call (nnn : BitVec 12) : Statement (.call nnn) := by
  refine ⟨(holds_F000 _ _ _ _).mpr ?_, BitVec.and_zero⟩
  rw [encodeWord, toNat_encodeNNN]; simp; omega

theorem skipEqImm (x : Reg) (nn : Byte) : Statement (.skipEqImm x nn) := by
  refine ⟨(holds_F000 _ _ _ _).mpr ?_, BitVec.and_zero⟩
  rw [encodeWord, toNat_encodeXNN]; simp; omega

theorem skipNeImm (x : Reg) (nn : Byte) : Statement (.skipNeImm x nn) := by
  refine ⟨(holds_F000 _ _ _ _).mpr ?_, BitVec.and_zero⟩
  rw [encodeWord, toNat_encodeXNN]; simp; omega

theorem skipEqReg (x : Reg) (y : Reg) : Statement (.skipEqReg x y) := by
  revert x y; unfold Statement; decide

theorem setImm (x : Reg) (nn : Byte) : Statement (.setImm x nn) := by
  refine ⟨(holds_F000 _ _ _ _).mpr ?_, BitVec.and_zero⟩
  rw [encodeWord, toNat_encodeXNN]; simp; omega

theorem addImm (x : Reg) (nn : Byte) : Statement (.addImm x nn) := by
  refine ⟨(holds_F000 _ _ _ _).mpr ?_, BitVec.and_zero⟩
  rw [encodeWord, toNat_encodeXNN]; simp; omega

theorem setReg (x : Reg) (y : Reg) : Statement (.setReg x y) := by
  revert x y; unfold Statement; decide

theorem orReg (x : Reg) (y : Reg) : Statement (.orReg x y) := by
  revert x y; unfold Statement; decide

theorem andReg (x : Reg) (y : Reg) : Statement (.andReg x y) := by
  revert x y; unfold Statement; decide

theorem xorReg (x : Reg) (y : Reg) : Statement (.xorReg x y) := by
  revert x y; unfold Statement; decide

theorem addReg (x : Reg) (y : Reg) : Statement (.addReg x y) := by
  revert x y; unfold Statement; decide

theorem sub (x : Reg) (y : Reg) : Statement (.sub x y) := by
  revert x y; unfold Statement; decide

theorem shr (x : Reg) : Statement (.shr x) := by
  revert x; unfold Statement; decide

theorem subn (x : Reg) (y : Reg) : Statement (.subn x y) := by
  revert x y; unfold Statement; decide

theorem shl (x : Reg) : Statement (.shl x) := by
  revert x; unfold Statement; decide

theorem skipNeReg (x : Reg) (y : Reg) : Statement (.skipNeReg x y) := by
  revert x y; unfold Statement; decide

theorem setIndex (nnn : BitVec 12) : Statement (.setIndex nnn) := by
  refine ⟨(holds_F000 _ _ _ _).mpr ?_, BitVec.and_zero⟩
  rw [encodeWord, toNat_encodeNNN]; simp; omega

theorem jumpV0 (nnn : BitVec 12) : Statement (.jumpV0 nnn) := by
  refine ⟨(holds_F000 _ _ _ _).mpr ?_, BitVec.and_zero⟩
  rw [encodeWord, toNat_encodeNNN]; simp; omega

theorem random (x : Reg) (nn : Byte) : Statement (.random x nn) := by
  refine ⟨(holds_F000 _ _ _ _).mpr ?_, BitVec.and_zero⟩
  rw [encodeWord, toNat_encodeXNN]; simp; omega

theorem draw (x : Reg) (y : Reg) (n : BitVec 4) : Statement (.draw x y n) := by
  refine ⟨(holds_F000 _ _ _ _).mpr ?_, BitVec.and_zero⟩
  rw [encodeWord, toNat_encodeXYN]; simp; omega

theorem skipKeyPressed (x : Reg) : Statement (.skipKeyPressed x) := by
  revert x; unfold Statement; decide

theorem skipKeyNotPressed (x : Reg) : Statement (.skipKeyNotPressed x) := by
  revert x; unfold Statement; decide

theorem getDelay (x : Reg) : Statement (.getDelay x) := by
  revert x; unfold Statement; decide

theorem waitKey (x : Reg) : Statement (.waitKey x) := by
  revert x; unfold Statement; decide

theorem setDelay (x : Reg) : Statement (.setDelay x) := by
  revert x; unfold Statement; decide

theorem setSound (x : Reg) : Statement (.setSound x) := by
  revert x; unfold Statement; decide

theorem addIndex (x : Reg) : Statement (.addIndex x) := by
  revert x; unfold Statement; decide

theorem indexToSprite (x : Reg) : Statement (.indexToSprite x) := by
  revert x; unfold Statement; decide

theorem storeBcd (x : Reg) : Statement (.storeBcd x) := by
  revert x; unfold Statement; decide

theorem storeRegs (x : Reg) : Statement (.storeRegs x) := by
  revert x; unfold Statement; decide

theorem loadRegs (x : Reg) : Statement (.loadRegs x) := by
  revert x; unfold Statement; decide

end Sys2Proof.Laws.TableRow
end

