-- ==== Sys2Proof/Tests/Slice0.lean ====
section
/-! SUPPORT. The model's own tests. Expected results are the vectors of spec/95_test_vectors.md (cited as T<table>.<n>),
the examples of the instruction rules, or hand calculation from them; each test is one step of a small state. At the end
stand the witnesses: states and operands that meet the hypotheses of the statements. -/

namespace Sys2Proof.Tests

open Sys2Proof Sys2Proof.Machine

/-! ### Helpers -/

/-- The state a step answers, if it answers one. -/
def answer (o : Host.Outcome State Fault Refusal) : Option State :=
  match o with
  | .next t => some t
  | .fault _ => none
  | .refused _ => none

/-- One step of s with the word w placed at PC. -/
def run (s : State) (w : Nat) : Option State := answer (step (s.withFetchWord 16 w))

/-- The state after reset with these registers set. -/
def regs (l : List (Reg × Byte)) : State := l.foldl (fun s p => s.setReg p.1 p.2) State.reset

/-- The state after reset with SP = n and STACK[0] = 0x0204. -/
def withStack (n : Fin 17) : State := { State.reset with sp := n, stack := State.reset.stack.set 0 0x0204 }

/-- The state after reset with I = a. -/
def withIdx (s : State) (a : Word) : State := { s with idx := a }

/-- The state after reset with these keys down. -/
def withKeys (s : State) (ks : List Key) : State := ks.foldl (fun s k => s.keySet k true) s

/-- s with these bytes at 0x300 and I = 0x300 (the sprites of T5). -/
def withSprite (s : State) (bs : List Byte) : State := withIdx (s.storeBytes 0x300 bs) 0x300

/-- s under DRAW_EDGE = clip. -/
def clipped (s : State) : State := { s with params := { s.params with drawEdge := .clip } }

/-- s under WAITKEY_PICK = p. -/
def picking (s : State) (p : WaitKeyPick) : State := { s with params := { s.params with waitKeyPick := p } }

/-- s under UNKNOWN_POLICY = halt. -/
def strict (s : State) : State := { s with params := { s.params with unknownPolicy := .halt } }

/-- The cells of row cy that are on. -/
def lit (fb : FrameBuffer) (cy : Fin 32) : List Nat :=
  ((List.finRange 64).filter fun cx => pixel fb (cx, cy)).map (·.val)

/-! ### Well-formedness: an ill-formed word for each check -/

/-- 0x0000 is an unknown instruction (R96). -/
theorem test_wordDefined_refuses_unknown : wordDefined 0x0000 = false ∧ wordDefined 0x8128 = false := by decide

/-- 0x07EE, 0x8346, 0x512F are defined but hold a 1 in a don't-care bit (R100). -/
theorem test_wordClean_refuses_dontCare :
    wordDefined 0x07EE = true ∧ wordClean 0x07EE = false ∧ wordClean 0x8346 = false ∧ wordClean 0x512F = false := by
  decide

theorem test_wordWellFormed_accepts : wordWellFormed 0x00EE = true ∧ wordWellFormed 0xD125 = true := by decide

/-- The table has 34 rows, no two of which share a word (R94, R101). -/
theorem test_opcodeTable_rows : opcodeTable.length = 34 := by decide

/-! ### Decoding: the word of every constructor, written out from R95 to R99 -/

theorem test_decode_control :
    decode [0x00, 0xEE] = .ok (.ret, []) ∧ decode [0x1A, 0xBC] = .ok (.jump 0xABC, []) ∧
    decode [0x23, 0x00] = .ok (.call 0x300, []) ∧ decode [0x33, 0x2A] = .ok (.skipEqImm 3 0x2A, []) ∧
    decode [0x43, 0x2A] = .ok (.skipNeImm 3 0x2A, []) ∧ decode [0x51, 0x2F] = .ok (.skipEqReg 1 2, []) ∧
    decode [0x91, 0x20] = .ok (.skipNeReg 1 2, []) ∧ decode [0xBF, 0xFF] = .ok (.jumpV0 0xFFF, []) :=
  ⟨rfl, rfl, rfl, rfl, rfl, rfl, rfl, rfl⟩

theorem test_decode_alu :
    decode [0x6A, 0xFF] = .ok (.setImm 10 0xFF, []) ∧ decode [0x7F, 0x03] = .ok (.addImm 15 3, []) ∧
    decode [0x83, 0x40] = .ok (.setReg 3 4, []) ∧ decode [0x81, 0x21] = .ok (.orReg 1 2, []) ∧
    decode [0x81, 0x22] = .ok (.andReg 1 2, []) ∧ decode [0x81, 0x23] = .ok (.xorReg 1 2, []) ∧
    decode [0x8F, 0x14] = .ok (.addReg 15 1, []) ∧ decode [0x81, 0x25] = .ok (.sub 1 2, []) ∧
    decode [0x83, 0x46] = .ok (.shr 3, []) ∧ decode [0x81, 0x27] = .ok (.subn 1 2, []) ∧
    decode [0x83, 0x0E] = .ok (.shl 3, []) ∧ decode [0xC4, 0x0F] = .ok (.random 4 0x0F, []) :=
  ⟨rfl, rfl, rfl, rfl, rfl, rfl, rfl, rfl, rfl, rfl, rfl, rfl⟩

theorem test_decode_index_memory :
    decode [0xA2, 0xF0] = .ok (.setIndex 0x2F0, []) ∧ decode [0xF1, 0x1E] = .ok (.addIndex 1, []) ∧
    decode [0xF0, 0x29] = .ok (.indexToSprite 0, []) ∧ decode [0xF3, 0x33] = .ok (.storeBcd 3, []) ∧
    decode [0xFF, 0x55] = .ok (.storeRegs 15, []) ∧ decode [0xF2, 0x65] = .ok (.loadRegs 2, []) :=
  ⟨rfl, rfl, rfl, rfl, rfl, rfl⟩

theorem test_decode_graphics_timers_keys :
    decode [0x0F, 0xE0] = .ok (.clearScreen, []) ∧ decode [0xD1, 0x25] = .ok (.draw 1 2 5, []) ∧
    decode [0xF3, 0x07] = .ok (.getDelay 3, []) ∧ decode [0xF5, 0x0A] = .ok (.waitKey 5, []) ∧
    decode [0xF3, 0x15] = .ok (.setDelay 3, []) ∧ decode [0xF3, 0x18] = .ok (.setSound 3, []) ∧
    decode [0xEF, 0x9E] = .ok (.skipKeyPressed 15, []) ∧ decode [0xE2, 0xA1] = .ok (.skipKeyNotPressed 2, []) :=
  ⟨rfl, rfl, rfl, rfl, rfl, rfl, rfl, rfl⟩

/-- Unknown words are rejected by group, and half a word is too short (T3.1, T3.4, T3.7, T3.9, T2.31). -/
theorem test_decode_rejects :
    decode [0x00, 0xE1] = .error .unknown0 ∧ decode [0x81, 0x2F] = .error .unknown8 ∧
    decode [0xE0, 0x9F] = .error .unknownE ∧ decode [0xF0, 0x75] = .error .unknownF ∧ decode [0x12] = .error .tooShort :=
  ⟨rfl, rfl, rfl, rfl, rfl⟩

/-- `draw V1,V2,5` is 0xD125, bytes D1 25 (T3.10). -/
theorem test_encode_draw : encode (.draw 1 2 5) = [0xD1, 0x25] := by decide

/-! ### Control flow (T1) -/

theorem test_jump : (run State.reset 0x1ABC).map (·.pc) = some 0x0ABC := by decide -- T1.1

theorem test_call : -- T1.4
    (run { State.reset with pc := 0x204 } 0x2300).map (fun t => (t.stack[0], t.sp, t.pc)) = some (0x204, 1, 0x300) := by
  decide

theorem test_call_full : -- T1.5
    (run { withStack 16 with pc := 0x204 } 0x2300).map (fun t => (t.sp, t.pc, t.ctl, t.cause)) =
      some (16, 0x204, .halted, some .stackOverflow) := by decide

theorem test_ret : -- T1.6, T1.8
    (run { withStack 1 with pc := 0x300 } 0x07EE).map (fun t => (t.sp, t.pc, t.stack[0])) = some (0, 0x206, 0x204) := by
  decide

theorem test_ret_empty : -- T1.7
    (run State.reset 0x00EE).map (fun t => (t.sp, t.pc, t.cause)) = some (0, 0x200, some .stackUnderflow) := by decide

theorem test_skipEqImm : -- T1.9, T1.10
    (run (regs [(3, 0x2A)]) 0x332A).map (·.pc) = some 0x204 ∧ (run (regs [(3, 0x2B)]) 0x332A).map (·.pc) = some 0x202 := by
  decide

theorem test_skipNeImm : -- T1.11, T1.12
    (run (regs [(3, 0x2A)]) 0x432A).map (·.pc) = some 0x202 ∧ (run (regs [(3, 0x2B)]) 0x432A).map (·.pc) = some 0x204 := by
  decide

theorem test_skipEqReg : -- T1.14, T1.15
    (run (regs [(1, 7), (2, 8)]) 0x5120).map (·.pc) = some 0x202 ∧
    (run (regs [(1, 7), (2, 7)]) 0x512F).map (·.pc) = some 0x204 := by decide

theorem test_skipNeReg : -- T1.17, T1.18
    (run (regs [(1, 7), (2, 8)]) 0x9120).map (·.pc) = some 0x204 ∧ (run (regs [(4, 7)]) 0x9440).map (·.pc) = some 0x202 := by
  decide

theorem test_jumpV0 : -- T1.20, T1.21
    (run (regs [(0, 0xFF)]) 0xBFFF).map (·.pc) = some 0x10FE ∧
    (run (regs [(0, 4), (3, 0x50)]) 0xB300).map (·.pc) = some 0x304 := by decide

/-! ### ALU (T2) -/

theorem test_setImm : (run State.reset 0x6AFF).map (·.reg 10) = some 0xFF := by decide -- T2.1

theorem test_addImm : -- T2.2, T2.3
    (run (regs [(2, 0xFF)]) 0x7202).map (fun t => (t.reg 2, t.reg 15)) = some (0x01, 0) ∧
    (run (regs [(15, 0xFE)]) 0x7F03).map (·.reg 15) = some 0x01 := by decide

theorem test_setReg : (run (regs [(4, 0x7E)]) 0x8340).map (·.reg 3) = some 0x7E := by decide -- T2.4

theorem test_orReg : -- T2.5
    (run (regs [(1, 0xF0), (2, 0x3C), (15, 1)]) 0x8121).map (fun t => (t.reg 1, t.reg 15)) = some (0xFC, 1) := by decide

theorem test_andReg : (run (regs [(1, 0xF0), (2, 0x3C)]) 0x8122).map (·.reg 1) = some 0x30 := by decide -- T2.6

theorem test_xorReg : (run (regs [(1, 0xF0), (2, 0x3C)]) 0x8123).map (·.reg 1) = some 0xCC := by decide -- T2.7

theorem test_addReg : -- T2.9
    (run (regs [(1, 0xC8), (2, 0x64)]) 0x8124).map (fun t => (t.reg 1, t.reg 15)) = some (0x2C, 1) := by decide

theorem test_addReg_flag_register : -- T2.12, T2.13
    (run (regs [(15, 0xFF), (1, 2)]) 0x8F14).map (·.reg 15) = some 1 ∧
    (run (regs [(15, 3), (1, 2)]) 0x8F14).map (·.reg 15) = some 0 := by decide

theorem test_sub : -- T2.15
    (run (regs [(1, 5), (2, 7)]) 0x8125).map (fun t => (t.reg 1, t.reg 15)) = some (0xFE, 0) := by decide

theorem test_sub_equal : -- T2.16
    (run (regs [(1, 7), (2, 7)]) 0x8125).map (fun t => (t.reg 1, t.reg 15)) = some (0, 1) := by decide

theorem test_shr : -- T2.20
    (run (regs [(3, 5), (4, 0xF0)]) 0x8346).map (fun t => (t.reg 3, t.reg 15, t.reg 4)) = some (2, 1, 0xF0) := by decide

theorem test_shr_flag_register : (run (regs [(15, 3)]) 0x8F06).map (·.reg 15) = some 0 := by decide -- T2.21

theorem test_subn : -- T2.22, T2.23
    (run (regs [(1, 5), (2, 7)]) 0x8127).map (fun t => (t.reg 1, t.reg 15)) = some (2, 1) ∧
    (run (regs [(1, 7), (2, 5)]) 0x8127).map (fun t => (t.reg 1, t.reg 15)) = some (0xFE, 0) := by decide

theorem test_shl : -- T2.24
    (run (regs [(3, 0x81)]) 0x830E).map (fun t => (t.reg 3, t.reg 15)) = some (2, 1) := by decide

theorem test_shl_flag_register : -- T2.26, T2.27
    (run (regs [(15, 0x80)]) 0x8F0E).map (·.reg 15) = some 2 ∧
    (run (regs [(15, 0x40)]) 0x8F0E).map (·.reg 15) = some 0 := by decide

/-- nn = 0 gives Vx = 0 whatever the draw (T2.29). -/
theorem test_random_mask_zero (s : State) : (answer (execRandom 4 0 s)).map (·.reg 4) = some 0 := by
  simp [answer, execRandom, State.reg, State.setReg, State.advance, State.complete]

theorem test_random_advances : (run State.reset 0xC4FF).map (fun t => (t.pc, t.draws, t.reg 5)) = some (0x202, 1, 0) := by
  decide

/-! ### Index register and memory (T4) -/

theorem test_setIndex : (run State.reset 0xA2F0).map (·.idx) = some 0x2F0 := by decide -- T4.1

theorem test_addIndex : -- T4.2, T4.3
    (run (withIdx (regs [(1, 3)]) 0xFFE) 0xF11E).map (fun t => (t.idx, t.reg 15)) = some (0x1001, 1) ∧
    (run (withIdx (regs [(1, 15), (15, 1)]) 0xFF0) 0xF11E).map (fun t => (t.idx, t.reg 15)) = some (0xFFF, 0) := by decide

theorem test_addIndex_wraps : -- T4.4, T4.5
    (run (withIdx (regs [(1, 2)]) 0xFFFF) 0xF11E).map (fun t => (t.idx, t.reg 15)) = some (1, 0) ∧
    (run (withIdx (regs [(15, 5)]) 0x100) 0xFF1E).map (fun t => (t.idx, t.reg 15)) = some (0x105, 0) := by decide

theorem test_indexToSprite : -- T4.6, R192
    (run (regs [(0, 15)]) 0xF029).map (·.idx) = some 0x4B ∧ (run (regs [(0, 255)]) 0xF029).map (·.idx) = some 0x4FB := by
  decide

theorem test_storeBcd : -- S6
    (run (withIdx (regs [(0, 205)]) 0x300) 0xF033).map
      (fun t => (Memory.readBytes t.mem 0x300 3, t.idx)) = some ([2, 0, 5], 0x300) := by decide

theorem test_storeBcd_bounds : -- T4.11, T4.12
    (run (withIdx (regs [(3, 0x7B)]) 0xFFE) 0xF333).map (fun t => (t.cause, t.pc)) = some (some .memoryBounds, 0x200) ∧
    (run (withIdx (regs [(3, 0x7B)]) 0xFFD) 0xF333).map (fun t => Memory.readBytes t.mem 0xFFD 3) = some [1, 2, 3] := by
  decide

theorem test_storeRegs : -- T4.7
    (run (withIdx (regs [(0, 0x11), (1, 0x22), (2, 0x33)]) 0x300) 0xF255).map
      (fun t => (Memory.readBytes t.mem 0x300 4, t.idx)) = some ([0x11, 0x22, 0x33, 0], 0x303) := by decide

theorem test_storeRegs_bounds : -- T4.8, T4.9
    (run (withIdx (regs [(0, 0x77)]) 0xFFF) 0xF055).map (fun t => (Memory.read t.mem 0xFFF, t.idx)) =
      some (0x77, 0x1000) ∧
    (run (withIdx State.reset 0xFFF) 0xF155).map (fun t => (t.cause, t.idx)) = some (some .memoryBounds, 0xFFF) := by
  decide

theorem test_loadRegs : -- T4.13: the font's first bytes
    (run State.reset 0xF265).map (fun t => (t.reg 0, t.reg 1, t.reg 2, t.reg 3, t.idx)) =
      some (0xF0, 0x90, 0x90, 0, 3) := by decide

theorem test_loadRegs_bounds : -- T4.14
    (run (withIdx State.reset 0x1000) 0xF065).map (fun t => (t.cause, t.idx)) = some (some .memoryBounds, 0x1000) := by
  decide

/-! ### Graphics (T5) -/

theorem test_clearScreen : -- T5.1
    (run { State.reset with rd := false, fb := togglePixel blank (3, 4) } 0x00E0).map
      (fun t => (pixel t.fb (3, 4), t.rd, t.reg 15)) = some (false, true, 0) := by decide

theorem test_draw : -- the glyph "5" of R211's example
    (run (withIdx State.reset 0x19) 0xD125).map (fun t => (lit t.fb 0, lit t.fb 1, lit t.fb 3, t.reg 15, t.rd)) =
      some ([0, 1, 2, 3], [0], [3], 0, true) := by decide

theorem test_draw_collision : -- T5.5
    (run { withSprite State.reset [0xC0] with fb := togglePixel blank (1, 0) } 0xD121).map
      (fun t => (lit t.fb 0, t.reg 15)) = some ([0], 1) := by decide

theorem test_draw_wraps : -- T5.6
    (run (withSprite (regs [(1, 60), (2, 31)]) [0xFF]) 0xD121).map (fun t => lit t.fb 31) =
      some [0, 1, 2, 3, 60, 61, 62, 63] := by decide

theorem test_draw_clips : -- T5.7, T5.11
    (run (clipped (withSprite (regs [(1, 60), (2, 31)]) [0xFF])) 0xD121).map (fun t => lit t.fb 31) =
      some [60, 61, 62, 63] ∧
    (run (clipped (withSprite (regs [(1, 67), (2, 33)]) [0x80])) 0xD121).map (fun t => (t.fb == blank, t.reg 15, t.rd)) =
      some (true, 0, true) := by decide

theorem test_draw_no_rows : -- T5.12
    (run { withIdx (regs [(15, 1)]) 0xFFFF with rd := false } 0xD120).map (fun t => (t.reg 15, t.rd, t.ctl)) =
      some (0, true, .ready) := by decide

theorem test_draw_bounds : -- T5.13
    (run { withIdx State.reset 0xFFE with rd := false } 0xD123).map (fun t => (t.cause, t.rd)) =
      some (some .memoryBounds, false) := by decide

/-! ### Timers and keys (T6) -/

theorem test_getDelay : -- T6.1
    (run { State.reset with dt := 0x2A } 0xF307).map (fun t => (t.reg 3, t.dt)) = some (0x2A, 0x2A) := by decide

theorem test_setDelay : (run (regs [(3, 0x3C)]) 0xF315).map (·.dt) = some 0x3C := by decide -- T6.2

theorem test_setSound : (run (regs [(3, 0x0A)]) 0xF318).map (·.st) = some 0x0A := by decide -- T6.3

theorem test_skipKeyPressed : -- T6.7, T6.8
    (run (withKeys (regs [(2, 10)]) [10]) 0xE29E).map (·.pc) = some 0x204 ∧
    (run (regs [(2, 10)]) 0xE29E).map (·.pc) = some 0x202 := by decide

theorem test_skipKeyNotPressed : -- T6.9, T6.10
    (run (withKeys (regs [(2, 10)]) [10]) 0xE2A1).map (·.pc) = some 0x202 ∧
    (run (regs [(2, 10)]) 0xE2A1).map (·.pc) = some 0x204 := by decide

theorem test_keySkips_range : -- T6.11
    (run (regs [(2, 0x10)]) 0xE29E).map (fun t => (t.cause, t.pc)) = some (some .keyIndexRange, 0x200) ∧
    (run (regs [(2, 0x10)]) 0xE2A1).map (fun t => (t.cause, t.pc)) = some (some .keyIndexRange, 0x200) := by decide

theorem test_waitKey_blocks : -- T6.12
    (run State.reset 0xF50A).map (fun t => (t.ctl, t.pc, t.reg 5)) = some (.awaitKey, 0x200, 0) := by decide

theorem test_waitKey_picks : -- T6.14
    (run (withKeys State.reset [9, 3]) 0xF50A).map (fun t => (t.reg 5, t.pc)) = some (3, 0x202) ∧
    (run (picking (withKeys State.reset [3, 9]) .highest) 0xF50A).map (·.reg 5) = some 9 := by decide

/-! ### The step and the events (T6, T7) -/

theorem test_step_halted : -- T7.1
    (answer (step { State.reset with ctl := .halted, cause := some .stackOverflow })).map
      (fun t => (t.ctl, t.cause, t.lastOutcome)) =
      some (.halted, some .stackOverflow, some (.halted (some .stackOverflow))) := by decide

theorem test_step_fetchBounds : -- T7.3
    (answer (step { State.reset with pc := 0xFFF })).map (fun t => (t.cause, t.pc)) = some (some .fetchBounds, 0xFFF) := by
  decide

theorem test_step_unknown : -- T7.4
    (answer (step State.reset)).map (fun t => (t.pc, t.lastOutcome)) =
      some (0x202, some (.unknownSkipped 0x0000 0x0200)) ∧
    (answer (step (strict State.reset))).map (fun t => (t.pc, t.cause)) = some (0x200, some .unknownInstruction) := by
  decide

theorem test_tick : -- T6.4, T6.6
    (State.tick { State.reset with dt := 2, st := 1 }).dt = 1 ∧ (State.tick { State.reset with dt := 2, st := 1 }).st = 0 ∧
    (State.tick { State.reset with dt := 5, ctl := .halted }).dt = 4 := by decide

theorem test_load_bounds : -- T7.8, T7.9, S12
    (State.reset.load [0xAA] 4096).1 = .imageTooLarge ∧ (State.reset.load [0xAA] 0xFFF).1 = .loaded ∧
    (State.reset.load [1, 2] 0xFFF) = (.imageTooLarge, State.reset) := by decide

/-- The glyph "F" ends the font at 0x04F, and memory is 0 from 0x050 on (R64). -/
theorem test_font_end :
    Memory.readBytes State.reset.mem 0x4B 6 = [0xF0, 0x80, 0xF0, 0x80, 0x80, 0] ∧ Config.font.length = 80 := by decide

/-- The host's view: after reset, a placed word is what the first step runs, and its address is PC. -/
theorem test_withFetchWord : (State.reset.withFetchWord 16 0xD125).fetchWord = 0xD125 := by decide

/-! ### Witnesses: the hypotheses of the statements are met together, each clause at a boundary of its range -/

/-- The state after reset with w placed at PC. -/
def placed (w : Nat) : State := State.reset.withFetchWord 16 w

/-- A halted state. -/
def haltedState : State := { State.reset with ctl := .halted, cause := some .stackOverflow }

/-- Every row of the table has a word with its pattern under its mask (the premise of `Encoded`). -/
theorem witness_Encoded : (opcodeTable.all fun r => r.holds r.pattern) = true := by decide

theorem witness_DecodeMatchesOpcodeTable :
    decodeWord 0x1200 = .ok (.jump 0x200) ∧ ∃ r ∈ opcodeTable, r.holds 0x1200 = true := by decide

theorem witness_DontCareBitsDoNotMatter :
    decodeWord 0x00EE = .ok .ret ∧ (0x00EE ^^^ 0x07EE : Word) &&& ~~~ Instr.ret.row.dontCare = 0 ∧
    (0x00EE : Word) ≠ 0x07EE := by decide

/-- One unknown word of each group, beside a defined one. -/
theorem witness_UnknownWordsBySelector :
    decodeWord 0x00E1 = .error .unknown0 ∧ decodeWord 0x812F = .error .unknown8 ∧ decodeWord 0xE09F = .error .unknownE ∧
    decodeWord 0xF0FF = .error .unknownF ∧ decodeWord 0xFFFF = .error .unknownF := by decide

theorem witness_StepRunsDecodedInstruction :
    (placed 0x1200).ctl ≠ .halted ∧ (placed 0x1200).pc.toNat ≤ 0xFFE ∧
    (0x1200 : Word).toNat = (Memory.read (placed 0x1200).mem 0x200).toNat * 256 +
      (Memory.read (placed 0x1200).mem 0x201).toNat ∧
    decodeWord 0x1200 = .ok (.jump 0x200) := by decide

theorem witness_HaltedStepChangesNothing : haltedState.ctl = .halted := by decide

/-- Beyond the last fetchable PC, and at it with a jump stored there (T1.23). -/
theorem witness_FetchOutsideMemoryHalts :
    ({ State.reset with pc := 0xFFF }).pc.toNat > 0xFFE ∧
    let s := ({ State.reset with pc := 0xFFE }).withFetchWord 16 0x1200
    s.ctl ≠ .halted ∧ s.pc.toNat = 0xFFE ∧ decodeWord 0x1200 = .ok (.jump 0x200) ∧
    (0x1200 : Word).toNat = (Memory.read s.mem 0xFFE).toNat * 256 + (Memory.read s.mem 0xFFF).toNat := by decide

theorem witness_UnknownInstructionByPolicy :
    State.reset.ctl ≠ .halted ∧ State.reset.pc.toNat ≤ 0xFFE ∧ decodeWord 0 = .error .unknown0 ∧
    (0 : Word).toNat = (Memory.read State.reset.mem 0x200).toNat * 256 + (Memory.read State.reset.mem 0x201).toNat ∧
    State.reset.params.unknownPolicy = .skip ∧ (strict State.reset).params.unknownPolicy = .halt := by decide

/-- A step of each of the four outcomes. -/
theorem witness_OutcomeMatchesControl :
    (answer (step (placed 0x1200))).map (·.lastOutcome) = some (some .executed) ∧
    (answer (step (placed 0xF50A))).map (·.lastOutcome) = some (some .blocked) ∧
    (answer (step State.reset)).map (·.lastOutcome) = some (some (.unknownSkipped 0 0x200)) ∧
    (answer (step (placed 0x00EE))).map (·.lastOutcome) = some (some (.halted (some .stackUnderflow))) := by decide

theorem witness_HaltsArePrecise :
    (placed 0x00EE).ctl ≠ .halted ∧ (answer (step (placed 0x00EE))).map (·.ctl) = some .halted := by decide

/-- Each cause that an instruction can raise, at the first value that raises it. -/
theorem witness_HaltCausesByInstruction :
    exec (.call 0x300) (withStack 16) = .next (Claims.haltedBy (withStack 16) .stackOverflow) ∧
    exec .ret State.reset = .next (Claims.haltedBy State.reset .stackUnderflow) ∧
    exec (.draw 0 0 1) (withIdx State.reset 0x1000) =
      .next (Claims.haltedBy (withIdx State.reset 0x1000) .memoryBounds) ∧
    exec (.storeBcd 0) (withIdx State.reset 0xFFE) =
      .next (Claims.haltedBy (withIdx State.reset 0xFFE) .memoryBounds) ∧
    exec (.storeRegs 1) (withIdx State.reset 0xFFF) =
      .next (Claims.haltedBy (withIdx State.reset 0xFFF) .memoryBounds) ∧
    exec (.loadRegs 0) (withIdx State.reset 0x1000) =
      .next (Claims.haltedBy (withIdx State.reset 0x1000) .memoryBounds) ∧
    exec (.skipKeyPressed 2) (regs [(2, 16)]) = .next (Claims.haltedBy (regs [(2, 16)]) .keyIndexRange) := by
  refine ⟨?_, ?_, ?_, ?_, ?_, ?_, ?_⟩ <;> rfl

theorem witness_OnlyWaitKeyBlocks : (answer (step (placed 0xF50A))).map (·.ctl) = some .awaitKey := by decide

/-- Steps that write DT, write ST, and start with RD set. -/
theorem witness_StepLeavesTimersKeysRedraw :
    (placed 0xF315).rd = true ∧
    (run (regs [(3, 7)]) 0xF315).map (·.dt) = some 7 ∧ ((regs [(3, 7)]).withFetchWord 16 0xF315).dt = 0 ∧
    (run (regs [(3, 7)]) 0xF318).map (·.st) = some 7 ∧ ((regs [(3, 7)]).withFetchWord 16 0xF318).st = 0 := by decide

/-- The clauses with two outcomes, each at both of them. -/
theorem witness_PcAfterInstruction :
    (answer (exec (.call 0x300) (withStack 16))).map (·.pc) = some 0x200 ∧
    (answer (exec (.call 0x300) (withStack 15))).map (·.pc) = some 0x300 ∧
    (answer (exec .ret State.reset)).map (·.pc) = some 0x200 ∧
    (answer (exec .ret (withStack 1))).map (·.pc) = some 0x206 ∧
    (answer (exec (.skipKeyPressed 2) (regs [(2, 16)]))).map (·.ctl) = some .halted ∧
    (answer (exec (.waitKey 2) State.reset)).map (·.pc) = some 0x200 ∧
    (answer (exec (.storeBcd 0) (withIdx State.reset 0xFFE))).map (·.pc) = some 0x200 ∧
    (answer (exec (.setImm 0 1) { State.reset with pc := 0xFFFF })).map (·.pc) = some 1 := by decide

/-- V[15] changed by a flag writer, and by an instruction whose destination it is. -/
theorem witness_OnlyNamedInstructionsWriteFlag :
    State.reset.v[15] = 0 ∧ (answer (exec (.sub 1 2) State.reset)).map (·.v[15]) = some 1 ∧
    (answer (exec (.setImm 15 9) State.reset)).map (·.v[15]) = some 9 := by decide

/-- A changed MEM, FB, RD, I, STACK, SP, DT and ST, one instruction each. -/
theorem witness_WritersOfEachState :
    (answer (exec (.storeBcd 0) (withIdx (regs [(0, 100)]) 0x300))).map (·.mem) = some [(0x300, 1)] ∧
    (answer (exec (.draw 0 0 1) State.reset)).map (fun t => pixel t.fb (0, 0)) = some true ∧
    (answer (exec .clearScreen { State.reset with rd := false })).map (·.rd) = some true ∧
    (answer (exec (.setIndex 0x2F0) State.reset)).map (·.idx) = some 0x2F0 ∧
    (answer (exec (.call 0x300) State.reset)).map (fun t => (t.stack[0], t.sp)) = some (0x200, 1) ∧
    (answer (exec (.setDelay 3) (regs [(3, 7)]))).map (·.dt) = some 7 ∧
    (answer (exec (.setSound 3) (regs [(3, 7)]))).map (·.st) = some 7 := by decide

/-- The invariant holds of a reset state that is about to halt, and of a halted one; in both the step answers. -/
theorem witness_StepKeepsInvariant :
    (placed 0x00EE).Inv ∧ (answer (step (placed 0x00EE))).isSome ∧ haltedState.Inv ∧
    (answer (step haltedState)).isSome := by
  simp only [State.Inv, State.causeMatchesCtl]; decide

theorem witness_EventsKeepInvariant : State.reset.Inv := by
  simp only [State.Inv, State.causeMatchesCtl]; decide

theorem witness_CanonicalMemoryIsUnique :
    Memory.wf [(0x300, 1)] = true ∧ Memory.wf (Memory.write [] 0x300 1) = true ∧
    ∀ a, Memory.read [(0x300, 1)] a = Memory.read (Memory.write [] 0x300 1) a :=
  ⟨by decide, by decide, fun _ => rfl⟩

/-- `jump 0x200` at 0x200, executed once. -/
theorem witness_SelfJumpChangesNothing :
    let s := { placed 0x1200 with lastOutcome := some .executed }
    s.atSelfJump ∧ s.ctl = .ready ∧ s.lastOutcome = some .executed := by
  simp only [State.atSelfJump]; decide

/-- The last call that fits and the first that does not. -/
theorem witness_CallPushesItsOwnAddress : (withStack 15).sp.val < 16 ∧ (withStack 16).sp.val = 16 := by decide

theorem witness_ReturnGoesPastTheCall :
    State.reset.sp.val = 0 ∧ (withStack 1).sp.val = (0 : Fin 16).val + 1 ∧ (withStack 16).sp.val = (15 : Fin 16).val + 1 := by
  decide

theorem witness_ReturnUndoesCall :
    (answer (exec (.call 0xFFF) (withStack 15))).map (fun t => (t.ctl, t.pc)) = some (.ready, 0xFFF) := by decide

theorem witness_StoreBcdWritesDigits :
    (withIdx State.reset 0xFFD).idx.toNat + 2 ≤ 0xFFF ∧ (withIdx State.reset 0xFFE).idx.toNat + 2 > 0xFFF := by decide

/-- The last block in memory and the first beyond it (store-regs and load-regs). -/
theorem witness_StoreRegsWritesBlock :
    (withIdx State.reset 0xFF0).idx.toNat + (15 : Reg).val ≤ 0xFFF ∧
    (withIdx State.reset 0xFF1).idx.toNat + (15 : Reg).val > 0xFFF := by decide

theorem witness_LoadRegsReadsBlock :
    (withIdx State.reset 0xFFF).idx.toNat + (0 : Reg).val ≤ 0xFFF ∧
    (withIdx State.reset 0x1000).idx.toNat + (0 : Reg).val > 0xFFF := by decide

theorem witness_StoreThenLoadRegsRoundTrips :
    (answer (exec (.storeRegs 15) (withIdx (regs [(0, 1), (15, 2)]) 0xFF0))).map (·.ctl) = some .ready := by decide

/-- A store over the instruction after it (T4.15). -/
theorem witness_StoreIsSeenByNextFetch :
    (answer (exec (.storeRegs 1) (withIdx (regs [(0, 0x12)]) 0x202))).map (fun t => (t.ctl, t.pc)) =
      some (.ready, 0x202) ∧
    (0 : Reg) < 1 ∧ (0x202 : Word).toNat = (withIdx (regs [(0, 0x12)]) 0x202).idx.toNat + (0 : Reg).val ∧
    (1 : Reg).val = (0 : Reg).val + 1 := by decide

/-- In memory at the last address and with no row; beyond it by one byte. -/
theorem witness_DrawTogglesCoveredCells :
    Claims.SpriteInMemory (withIdx State.reset 0xFFF) 1 ∧ Claims.SpriteInMemory (withIdx State.reset 0xFFFF) 0 ∧
    ¬ Claims.SpriteInMemory (withIdx State.reset 0xFFF) 2 := by
  simp only [Claims.SpriteInMemory]; decide

/-- A draw that collides and one that does not: the font's first row at (0, 0). -/
theorem witness_DrawTogglesCoveredCells_collision :
    (answer (exec (.draw 0 0 1) { State.reset with fb := togglePixel blank (3, 0) })).map (·.v[15]) = some 1 ∧
    (answer (exec (.draw 0 0 1) { State.reset with fb := togglePixel blank (4, 0) })).map (·.v[15]) = some 0 := by
  decide

/-- The last place wholly inside the grid, under both parameters. -/
theorem witness_DrawEdgePlacesPixels :
    let s := regs [(1, 56), (2, 27)]
    s.v[1].toNat ≤ 56 ∧ s.v[2].toNat + (5 : BitVec 4).toNat ≤ 32 ∧
    (answer (exec (.draw 1 2 5) s)).isSome ∧ (answer (exec (.draw 1 2 5) (clipped s))).isSome ∧
    (clipped s).params ≠ s.params := by decide

theorem witness_DrawingTwiceRestores :
    (1 : Reg) ≠ 15 ∧ (2 : Reg) ≠ 15 ∧ (answer (exec (.draw 1 2 5) State.reset)).map (·.ctl) = some .ready := by decide

theorem witness_KeySkipsTestKeyState :
    (regs [(2, 16)]).v[2].toNat > 15 ∧ (regs [(2, 15)]).v[2].toNat = (15 : Key).val := by decide

/-- No key down, one down, and two under each parameter. -/
theorem witness_WaitKeyTakesPressedKey :
    (∀ k : Key, State.reset.key[k] = false) ∧ (∃ k : Key, (withKeys State.reset [15]).key[k] = true) ∧
    (picking State.reset .lowest).params.waitKeyPick = .lowest ∧
    (picking State.reset .highest).params.waitKeyPick = .highest ∧
    (picking State.reset .any).params.waitKeyPick = .any := by decide

theorem witness_KeySetAndRedrawAck :
    State.reset.rd = true ∧ (answer (applyEvent .redrawAck State.reset)).map (·.rd) = some false := by decide

/-- The last image that fits and the first that does not, and an origin at and beyond the end of memory. -/
theorem witness_LoadIsAllOrNothing :
    ([1, 2] : List Byte).length ≤ 4096 - 0xFFE ∧ ([1, 2] : List Byte).length > 4096 - 0xFFF ∧
    ([] : List Byte).length ≤ 4096 - 4096 ∧ (4097 : Nat) > 4096 := by decide

theorem witness_LargestImageIs3584Bytes :
    (List.replicate 3584 (0 : Byte)).length = 3584 ∧ (List.replicate 3585 (0 : Byte)).length = 3585 :=
  ⟨List.length_replicate, List.length_replicate⟩

/-- The first address after the font. -/
theorem witness_ResetPutsEverythingAtItsValue :
    (80 : Nat) ≤ 80 ∧ Memory.read State.reset.mem 79 = 0x80 ∧ Memory.read State.reset.mem 80 = 0 := by decide

/-- A bit that is 0 in nn (random). -/
theorem witness_RandomIsMaskedByNn : (0x0F : Byte).getLsbD 4 = false := by decide

/-- Events without a reset, from a halted state. -/
theorem witness_OnlyResetLeavesHalted :
    haltedState.ctl = .halted ∧ Event.reset ∉ [Event.step, .tick, .keySet 7 true, .load [1] 0x200, .redrawAck] ∧
    (answer (applyEvents [.step, .tick, .keySet 7 true, .load [1] 0x200, .redrawAck] haltedState)).isSome := by decide

end Sys2Proof.Tests
end

/-! # The invariant along every sequence of events

The invariant speaks of MEM, CTL and CAUSE only. Three rules say how it is kept: by an update that leaves all three, by
one that ends with a running machine, and by a halt. Every step and every other event is one of these. -/

namespace Sys2Proof.Machine

/-! ### The rules of the invariant -/

/-- An update that leaves MEM, CTL and CAUSE keeps the invariant. -/
theorem State.Inv.of_eq {s t : State} (hs : s.Inv) (hmem : t.mem = s.mem) (hctl : t.ctl = s.ctl)
    (hcause : t.cause = s.cause) : t.Inv := by
  simpa only [State.Inv, State.causeMatchesCtl, hmem, hctl, hcause] using hs

/-- A store inside memory keeps the invariant. -/
theorem State.Inv.storeBytes {s : State} (hs : s.Inv) {a : Nat} {bs : List Byte} (hfit : a + bs.length ≤ 4096) :
    (s.storeBytes a bs).Inv :=
  ⟨Memory.wf_writeBytes bs hs.1 hfit, hs.2⟩

/-- A halt sets CTL and CAUSE together, so it keeps the invariant (60_exceptions.md R252). -/
theorem State.Inv.raiseHalt {s : State} (hs : s.Inv) (c : HaltCause) : (s.raiseHalt c).Inv :=
  ⟨hs.1, by simp [State.causeMatchesCtl]⟩

/-- While the machine runs, CAUSE is None (10_state.md R41). -/
theorem State.Inv.cause_eq_none {s : State} (hs : s.Inv) (hrun : s.ctl ≠ .halted) : s.cause = none := by
  by_contra hc
  exact hrun (hs.2.mpr hc)

/-- A running machine whose memory is canonical and whose CAUSE is None has the invariant. -/
theorem State.inv_of_running {t : State} (hmem : Memory.wf t.mem = true) (hrun : t.ctl ≠ .halted)
    (hcause : t.cause = none) : t.Inv :=
  ⟨hmem, by simp [State.causeMatchesCtl, hrun, hcause]⟩

/-! ### Instructions and steps -/

/-- Every instruction keeps the canonical form of memory. -/
theorem exec_keeps_wf {i : Instr} {s t : State} (hwf : Memory.wf s.mem = true) (h : exec i s = .next t) :
    Memory.wf t.mem = true := by
  rcases exec_mem_cases h with hmem | ⟨a, bs, hfit, hmem⟩
  · rwa [hmem]
  · rw [hmem]; exact Memory.wf_writeBytes bs hwf hfit

/-- Executing an instruction on a running machine answers a state with the invariant. An instruction that completes
leaves CAUSE alone, so it is here that the machine must not be halted (log 13). -/
theorem exec_keeps_inv (i : Instr) {s : State} (hs : s.Inv) (hrun : s.ctl ≠ .halted) :
    ∃ t, exec i s = .next t ∧ t.Inv := by
  obtain ⟨t, h, hcompleted | hblocked | ⟨c, hhalted⟩⟩ := exec_cases i s
  · have hcause : t.cause = none := hcompleted.cause.trans (hs.cause_eq_none hrun)
    exact ⟨t, h, State.inv_of_running (exec_keeps_wf hs.1 h) (by simp [hcompleted.ctl]) hcause⟩
  · subst hblocked
    exact ⟨_, h, State.inv_of_running hs.1 (by simp) (hs.cause_eq_none hrun)⟩
  · subst hhalted
    exact ⟨_, h, hs.raiseHalt c⟩

/-- Every step from a state with the invariant answers a state with the invariant. -/
theorem step_keeps_inv {s : State} (hs : s.Inv) : ∃ t, step s = .next t ∧ t.Inv := by
  obtain ⟨-, h⟩ | ⟨-, c, h⟩ | ⟨hrun, -, h⟩ | ⟨hrun, i, -, h⟩ := step_cases s
  · exact ⟨_, h, hs.of_eq rfl rfl rfl⟩
  · exact ⟨_, h, hs.raiseHalt c⟩
  · exact ⟨_, h, State.inv_of_running hs.1 (by simp) (hs.cause_eq_none hrun)⟩
  · rw [h]; exact exec_keeps_inv i hs hrun

/-! ### The events beside the step -/

/-- Reset ends with the invariant, whatever state it is applied to. -/
theorem State.inv_doReset (s : State) : s.doReset.Inv :=
  State.inv_of_running Memory.wf_reset (by simp [State.doReset, State.reset]) rfl

/-- A load stores its image inside memory or changes nothing, so it keeps the invariant. -/
theorem State.Inv.load {s : State} (hs : s.Inv) (bytes : List Byte) (origin : Nat) : (s.load bytes origin).2.Inv := by
  obtain ⟨hfit, h⟩ | ⟨-, h⟩ := load_cases s bytes origin
  · rw [h]; exact hs.storeBytes hfit
  · rwa [h]

/-- Every event from a state with the invariant answers a state with the invariant. -/
theorem applyEvent_keeps_inv (e : Event) {s : State} (hs : s.Inv) : ∃ t, applyEvent e s = .next t ∧ t.Inv := by
  cases e with
  | reset => exact ⟨_, rfl, s.inv_doReset⟩
  | load bytes origin => exact ⟨_, rfl, hs.load bytes origin⟩
  | step => exact step_keeps_inv hs
  | tick => exact ⟨_, rfl, hs.of_eq rfl rfl rfl⟩
  | keySet k b => exact ⟨_, rfl, hs.of_eq rfl rfl rfl⟩
  | redrawAck => exact ⟨_, rfl, hs.of_eq rfl rfl rfl⟩

/-- Events run in order: when the first answers t, the sequence does what the rest does from t. -/
theorem applyEvents_cons {e : Event} {s t : State} (h : applyEvent e s = .next t) (es : List Event) :
    applyEvents (e :: es) s = applyEvents es t := by
  rw [applyEvents, h]

end Sys2Proof.Machine

namespace Sys2Proof

open Sys2Proof.Machine

/-- Settles O21, by induction on the sequence: each event answers a state with the invariant, from which the rest runs. -/
theorem eventsKeepInvariant : Obligations.EventsKeepInvariant := by
  intro es
  induction es with
  | nil => exact fun s hs => ⟨s, rfl, hs⟩
  | cons e es ih =>
    intro s hs
    obtain ⟨t, h, ht⟩ := applyEvent_keeps_inv e hs
    rw [applyEvents_cons h]
    exact ih t ht

end Sys2Proof

/-! # What one instruction does to each piece of state

An instruction without a branch answers one state, which `cases` reads off its meaning. For the nine that can halt or
block, an inversion lemma says once which states they can answer. The lists of 10_state.md (what happens to PC, who
writes the flag, who writes each piece) are then case splits over the instructions. -/

namespace Sys2Proof.Machine

/-! ### The instructions that can halt or block -/

section

variable {s t : State}

/-- An answer by a check is the answer of the check's branch. -/
theorem next_of_ite {c : Bool} {a b : State}
    (h : (if c then .next a else .next b : Host.Outcome State Fault Refusal) = .next t) :
    (c = true ∧ t = a) ∨ (c = false ∧ t = b) := by
  cases c with
  | true => cases h; exact .inl ⟨rfl, rfl⟩
  | false => cases h; exact .inr ⟨rfl, rfl⟩

/-- return: a halt on the empty stack, else the top entry is popped (41_control_flow.md R141). -/
theorem exec_ret_cases (h : exec .ret s = .next t) :
    (s.sp.val = 0 ∧ t = s.raiseHalt .stackUnderflow) ∨
    ∃ j : Fin 16, s.sp.val = j.val + 1 ∧ t = { s with sp := j.castSucc }.complete (s.stack[j] + 2) := by
  simp only [exec, execRet] at h
  obtain ⟨hsp, hpop⟩ | ⟨hlt, hsp, hpop⟩ := s.pop_cases
  · rw [hpop] at h; cases h
    exact .inl ⟨hsp, rfl⟩
  · rw [hpop] at h; cases h
    exact .inr ⟨⟨s.sp.val - 1, hlt⟩, by dsimp only; omega, rfl⟩

/-- call: a halt on the full stack, else PC is pushed (41_control_flow.md R143). -/
theorem exec_call_cases {nnn : BitVec 12} (h : exec (.call nnn) s = .next t) :
    (s.sp.val = 16 ∧ t = s.raiseHalt .stackOverflow) ∨
    ∃ hlt : s.sp.val < 16, t =
      { s with stack := s.stack.set s.sp.val s.pc hlt, sp := ⟨s.sp.val + 1, Nat.succ_lt_succ hlt⟩ }.complete
        (addrOf nnn) := by
  simp only [exec, execCall] at h
  obtain ⟨hsp, hpush⟩ | ⟨hlt, hpush⟩ := s.push_cases s.pc
  · rw [hpush] at h; cases h
    exact .inl ⟨hsp, rfl⟩
  · rw [hpush] at h; cases h
    exact .inr ⟨hlt, rfl⟩

/-- draw: the sprite is plotted, or it does not lie in memory (44_graphics.md R211). -/
theorem exec_draw_cases {x y : Reg} {n : BitVec 4} (h : exec (.draw x y n) s = .next t) :
    (inMemory s.idx n.toNat = true ∧ ∃ d,
      d = plotAll s.fb (spriteCells s.params.drawEdge (s.reg x).toNat (s.reg y).toNat (s.spriteBytes n)) ∧
      t = ((s.show d.1).setFlag (flagByte d.2)).advance) ∨
    (inMemory s.idx n.toNat = false ∧ t = s.raiseHalt .memoryBounds) :=
  (next_of_ite h).imp_left fun ⟨hin, ht⟩ => ⟨hin, _, rfl, ht⟩

/-- store-bcd: three digits are stored, or they do not lie in memory (43_index_memory.md R193). -/
theorem exec_storeBcd_cases {x : Reg} (h : exec (.storeBcd x) s = .next t) :
    (inMemory s.idx 3 = true ∧ t = (s.storeBytes s.dataAddr (bcdDigits (s.reg x))).advance) ∨
    (inMemory s.idx 3 = false ∧ t = s.raiseHalt .memoryBounds) :=
  next_of_ite h

/-- store-regs: the block is stored, or it does not lie in memory (43_index_memory.md R194). -/
theorem exec_storeRegs_cases {x : Reg} (h : exec (.storeRegs x) s = .next t) :
    (inMemory s.idx (x.val + 1) = true ∧
      t = ((s.storeBytes s.dataAddr (s.regsUpTo x)).setIdx (s.idx + BitVec.ofNat 16 (x.val + 1))).advance) ∨
    (inMemory s.idx (x.val + 1) = false ∧ t = s.raiseHalt .memoryBounds) :=
  next_of_ite h

/-- load-regs: the block is loaded, or it does not lie in memory (43_index_memory.md R195). -/
theorem exec_loadRegs_cases {x : Reg} (h : exec (.loadRegs x) s = .next t) :
    (inMemory s.idx (x.val + 1) = true ∧
      t = ((s.loadRegsFrom s.dataAddr x).setIdx (s.idx + BitVec.ofNat 16 (x.val + 1))).advance) ∨
    (inMemory s.idx (x.val + 1) = false ∧ t = s.raiseHalt .memoryBounds) :=
  next_of_ite h

/-- skip-key-pressed: a skip by the key that Vx names, or Vx names none (45_timers_input.md R233). -/
theorem exec_skipKeyPressed_cases {x : Reg} (h : exec (.skipKeyPressed x) s = .next t) :
    (keyOf (s.reg x) = none ∧ t = s.raiseHalt .keyIndexRange) ∨
    ∃ k, keyOf (s.reg x) = some k ∧ t = s.skipIf s.key[k] := by
  simp only [exec, execSkipKeyPressed] at h
  split at h <;> cases h
  · exact .inl ⟨‹_›, rfl⟩
  · exact .inr ⟨_, ‹_›, rfl⟩

/-- skip-key-not-pressed: a skip by the key that Vx names, or Vx names none (45_timers_input.md R234). -/
theorem exec_skipKeyNotPressed_cases {x : Reg} (h : exec (.skipKeyNotPressed x) s = .next t) :
    (keyOf (s.reg x) = none ∧ t = s.raiseHalt .keyIndexRange) ∨
    ∃ k, keyOf (s.reg x) = some k ∧ t = s.skipIf (!s.key[k]) := by
  simp only [exec, execSkipKeyNotPressed] at h
  split at h <;> cases h
  · exact .inl ⟨‹_›, rfl⟩
  · exact .inr ⟨_, ‹_›, rfl⟩

/-- wait-key: it blocks while no key is down, else the picked key goes to Vx (45_timers_input.md R235). -/
theorem exec_waitKey_cases {x : Reg} (h : exec (.waitKey x) s = .next t) :
    (pressedKeys s.key = [] ∧ t = s.block) ∨
    ∃ k ks, pressedKeys s.key = k :: ks ∧
      t = ((s.drawn (if s.params.waitKeyPick = .any then 1 else 0)).setReg x
        (BitVec.ofNat 8 (pickKey s.params.waitKeyPick s.draws k ks).val)).advance := by
  simp only [exec, execWaitKey] at h
  split at h <;> cases h
  · exact .inl ⟨‹_›, rfl⟩
  · exact .inr ⟨_, _, ‹_›, rfl⟩

end

/-! ### Addresses -/

@[simp] theorem toNat_addrOf (nnn : BitVec 12) : (addrOf nnn).toNat = nnn.toNat :=
  BitVec.toNat_setWidth_of_le (by decide)

@[simp] theorem toNat_wide (b : Byte) : (wide b).toNat = b.toNat :=
  BitVec.toNat_setWidth_of_le (by decide)

/-- The target of jump nnn+V0 is at most 0x10FE, so the 16-bit sum never wraps (41_control_flow.md R148). -/
theorem toNat_addrOf_add_wide (nnn : BitVec 12) (b : Byte) : (addrOf nnn + wide b).toNat = nnn.toNat + b.toNat := by
  have := nnn.isLt
  have := b.isLt
  rw [BitVec.toNat_add, toNat_addrOf, toNat_wide]; omega

/-- A skip goes to one of its two targets (10_state.md R24). -/
theorem State.skipIf_pc_cases (s : State) (c : Bool) : (s.skipIf c).pc = s.pc + 4 ∨ (s.skipIf c).pc = s.pc + 2 := by
  cases c with
  | true => exact .inl rfl
  | false => exact .inr rfl

/-! ### The flag -/

/-- Only a write to V[15] changes the flag. -/
theorem eq_flagReg_of_setReg {s : State} {x : Reg} {b : Byte} (h : (s.setReg x b).reg flagReg ≠ s.reg flagReg) :
    x = flagReg := by
  by_contra hx
  exact h (by simp [Ne.symm hx])

/-- A block load that changes the flag goes up to V[15]. -/
theorem eq_flagReg_of_loadRegsFrom {s : State} {a : Nat} {x : Reg}
    (h : (s.loadRegsFrom a x).reg flagReg ≠ s.reg flagReg) : x = flagReg := by
  by_contra hx
  have hlt : ¬ flagReg ≤ x := fun hle => hx (le_antisymm (Fin.le_last x) hle)
  exact h (by simp [hlt])

/-! ### The contents of memory after reset -/

theorem length_font : Config.font.length = 80 := rfl

/-- Below 80 an unlisted address holds the font's byte (20_memory.md R63, R64). -/
theorem Memory.font_eq_unlisted {a : Nat} (h : a < 80) : Config.font[a]? = some (Memory.unlisted a) := by
  have hlt : a < Config.font.length := by rwa [length_font]
  rw [Memory.unlisted, List.getD_eq_getElem _ _ hlt, List.getElem?_eq_getElem hlt]

/-- From 80 on an unlisted address holds 0 (20_memory.md R62). -/
theorem Memory.unlisted_eq_zero {a : Nat} (h : 80 ≤ a) : Memory.unlisted a = 0 :=
  List.getD_eq_default _ _ (length_font.trans_le h)

end Sys2Proof.Machine

namespace Sys2Proof

open Sys2Proof.Machine

/-- Settles O20: every step answers, and what it answers has the invariant. -/
theorem stepKeepsInvariant : Obligations.StepKeepsInvariant := by
  intro s t hs h
  obtain ⟨t', h', ht'⟩ := step_keeps_inv hs
  rw [h] at h'; cases h'
  exact ht'

/-- Settles O17, by cases on the instruction. -/
theorem pcAfterInstruction : Obligations.PcAfterInstruction := by
  intro i s t h
  cases i with
  | ret =>
    obtain ⟨hsp, rfl⟩ | ⟨j, hsp, rfl⟩ := exec_ret_cases h
    · exact .inl ⟨hsp, rfl⟩
    · exact .inr ⟨j, hsp, rfl⟩
  | jump nnn => cases h; exact toNat_addrOf nnn
  | call nnn =>
    obtain ⟨hsp, rfl⟩ | ⟨hlt, rfl⟩ := exec_call_cases h
    · simp [hsp]
    · simp [hlt.ne]
  | jumpV0 nnn => cases h; exact toNat_addrOf_add_wide nnn (s.reg 0)
  | skipEqImm _ _ | skipNeImm _ _ | skipEqReg _ _ | skipNeReg _ _ => cases h; exact s.skipIf_pc_cases _
  | skipKeyPressed _ =>
    obtain ⟨-, rfl⟩ | ⟨k, -, rfl⟩ := exec_skipKeyPressed_cases h
    · exact .inr (.inr ⟨rfl, rfl⟩)
    · exact (s.skipIf_pc_cases _).imp_right .inl
  | skipKeyNotPressed _ =>
    obtain ⟨-, rfl⟩ | ⟨k, -, rfl⟩ := exec_skipKeyNotPressed_cases h
    · exact .inr (.inr ⟨rfl, rfl⟩)
    · exact (s.skipIf_pc_cases _).imp_right .inl
  | waitKey _ =>
    obtain ⟨-, rfl⟩ | ⟨k, ks, -, rfl⟩ := exec_waitKey_cases h
    · exact .inr ⟨rfl, rfl⟩
    · exact .inl rfl
  | draw _ _ _ =>
    obtain ⟨-, d, -, rfl⟩ | ⟨-, rfl⟩ := exec_draw_cases h
    · exact .inl rfl
    · exact .inr ⟨rfl, rfl⟩
  | storeBcd _ =>
    obtain ⟨-, rfl⟩ | ⟨-, rfl⟩ := exec_storeBcd_cases h
    · exact .inl rfl
    · exact .inr ⟨rfl, rfl⟩
  | storeRegs _ =>
    obtain ⟨-, rfl⟩ | ⟨-, rfl⟩ := exec_storeRegs_cases h
    · exact .inl rfl
    · exact .inr ⟨rfl, rfl⟩
  | loadRegs _ =>
    obtain ⟨-, rfl⟩ | ⟨-, rfl⟩ := exec_loadRegs_cases h
    · exact .inl rfl
    · exact .inr ⟨rfl, rfl⟩
  | _ => cases h; rfl

/-- Settles O18, by cases on the instruction: a register write that changes the flag is a write to V[15], and the
instructions that write no register leave it. -/
theorem onlyNamedInstructionsWriteFlag : Obligations.OnlyNamedInstructionsWriteFlag := by
  intro i s t h hflag
  change t.reg flagReg ≠ s.reg flagReg at hflag
  cases i with
  | addReg _ _ | sub _ _ | subn _ _ | shr _ | shl _ | draw _ _ _ | addIndex _ => trivial
  | setImm _ _ | addImm _ _ | setReg _ _ | orReg _ _ | andReg _ _ | xorReg _ _ | random _ _ | getDelay _ =>
    cases h; exact eq_flagReg_of_setReg hflag
  | waitKey _ =>
    obtain ⟨-, rfl⟩ | ⟨k, ks, -, rfl⟩ := exec_waitKey_cases h
    · exact absurd rfl hflag
    · exact eq_flagReg_of_setReg hflag
  | loadRegs _ =>
    obtain ⟨-, rfl⟩ | ⟨-, rfl⟩ := exec_loadRegs_cases h
    · exact eq_flagReg_of_loadRegsFrom hflag
    · exact absurd rfl hflag
  | ret => obtain ⟨-, rfl⟩ | ⟨_, -, rfl⟩ := exec_ret_cases h <;> exact absurd rfl hflag
  | call _ => obtain ⟨-, rfl⟩ | ⟨_, rfl⟩ := exec_call_cases h <;> exact absurd rfl hflag
  | skipKeyPressed _ =>
    obtain ⟨-, rfl⟩ | ⟨_, -, rfl⟩ := exec_skipKeyPressed_cases h <;> exact absurd rfl hflag
  | skipKeyNotPressed _ =>
    obtain ⟨-, rfl⟩ | ⟨_, -, rfl⟩ := exec_skipKeyNotPressed_cases h <;> exact absurd rfl hflag
  | storeBcd _ => obtain ⟨-, rfl⟩ | ⟨-, rfl⟩ := exec_storeBcd_cases h <;> exact absurd rfl hflag
  | storeRegs _ => obtain ⟨-, rfl⟩ | ⟨-, rfl⟩ := exec_storeRegs_cases h <;> exact absurd rfl hflag
  | _ => cases h; exact absurd rfl hflag

/-- Settles O19, by cases on the instruction: the state it answers agrees with the one before in every piece that R20
does not name it for. -/
theorem writersOfEachState : Obligations.WritersOfEachState := by
  intro i s t h
  cases i with
  | ret => obtain ⟨-, rfl⟩ | ⟨_, -, rfl⟩ := exec_ret_cases h <;> simp
  | call _ => obtain ⟨-, rfl⟩ | ⟨_, rfl⟩ := exec_call_cases h <;> simp
  | draw _ _ _ => obtain ⟨-, _, -, rfl⟩ | ⟨-, rfl⟩ := exec_draw_cases h <;> simp
  | storeBcd _ => obtain ⟨-, rfl⟩ | ⟨-, rfl⟩ := exec_storeBcd_cases h <;> simp
  | storeRegs _ => obtain ⟨-, rfl⟩ | ⟨-, rfl⟩ := exec_storeRegs_cases h <;> simp
  | loadRegs _ => obtain ⟨-, rfl⟩ | ⟨-, rfl⟩ := exec_loadRegs_cases h <;> simp
  | skipKeyPressed _ => obtain ⟨-, rfl⟩ | ⟨_, -, rfl⟩ := exec_skipKeyPressed_cases h <;> simp
  | skipKeyNotPressed _ => obtain ⟨-, rfl⟩ | ⟨_, -, rfl⟩ := exec_skipKeyNotPressed_cases h <;> simp
  | waitKey _ => obtain ⟨-, rfl⟩ | ⟨_, _, -, rfl⟩ := exec_waitKey_cases h <;> simp
  | _ => cases h; simp

/-- Settles O22: after reset memory lists nothing, and the machine is READY with CAUSE None. -/
theorem resetHasInvariant : Obligations.ResetHasInvariant :=
  State.inv_of_running Memory.wf_reset (by decide) rfl

/-- Settles O56: nothing is listed in memory after reset, so it reads as the font and then zeros. -/
theorem resetPutsEverythingAtItsValue : Obligations.ResetPutsEverythingAtItsValue := by
  intro s
  refine ⟨s.doReset, rfl, ?v, rfl, rfl, ?stack, rfl, rfl, rfl, ?key, pixel_blank, rfl, ?font, ?zeros,
    rfl, rfl, rfl, rfl, rfl⟩
  case v => intro x; simp [State.doReset, State.reset]
  case stack => intro j; simp [State.doReset, State.reset]
  case key => intro k; simp [State.doReset, State.reset]
  case font => exact fun a => Memory.font_eq_unlisted a.isLt
  case zeros => exact fun a ha => Memory.unlisted_eq_zero ha

end Sys2Proof

/-! # Memory: its canonical form, what the next fetch sees, and where an access halts

A canonical memory is recovered from what it reads as: its first entry stands at the least address that does not read
as after reset. A halt is told from a completion by CTL, so which instruction halts, and when, follows from the states
that the inversion lemmas above say it can answer. -/

namespace Sys2Proof.Machine.Memory

/-! ### The canonical form -/

/-- What canonical form says of the first entry and of the rest (log 7). -/
theorem wfFrom_cons {lo a : Nat} {v : Byte} {m : Memory} :
    wfFrom lo ((a, v) :: m) = true ↔ lo ≤ a ∧ a < 4096 ∧ v ≠ unlisted a ∧ wfFrom (a + 1) m = true := by
  simp [wfFrom, and_assoc]

theorem read_cons_self (a : Nat) (v : Byte) (m : Memory) : read ((a, v) :: m) a = v :=
  if_pos rfl

theorem read_cons_of_ne {a x : Nat} (h : x ≠ a) (v : Byte) (m : Memory) : read ((a, v) :: m) x = read m x :=
  if_neg h

/-- Below the first address it may list, a canonical memory reads as unlisted. -/
theorem read_of_wfFrom_of_lt {lo x : Nat} {m : Memory} (h : wfFrom lo m = true) (hx : x < lo) :
    read m x = unlisted x := by
  induction m generalizing lo with
  | nil => rfl
  | cons c m ih =>
    obtain ⟨hlo, -, -, hm⟩ := wfFrom_cons.mp h
    rw [read_cons_of_ne (by omega)]
    exact ih hm (by omega)

/-- Memories that read alike: where the first lists its first entry, the second cannot still be below its own first
address, since there it would read as unlisted. -/
theorem le_of_read_eq {lo lo' a : Nat} {v : Byte} {m m' : Memory} (h : wfFrom lo ((a, v) :: m) = true)
    (h' : wfFrom lo' m' = true) (heq : ∀ x, read ((a, v) :: m) x = read m' x) : lo' ≤ a := by
  obtain ⟨-, -, hv, -⟩ := wfFrom_cons.mp h
  by_contra hlt
  have hread : v = unlisted a := by
    rw [← read_cons_self a v m, heq, read_of_wfFrom_of_lt h' (by omega)]
  exact hv hread

/-- A canonical memory that reads as unlisted everywhere lists nothing. -/
theorem eq_nil_of_read_eq {lo : Nat} {m : Memory} (h : wfFrom lo m = true) (heq : ∀ x, read m x = unlisted x) :
    m = [] := by
  cases m with
  | nil => rfl
  | cons c m =>
    obtain ⟨-, -, hv, -⟩ := wfFrom_cons.mp h
    exact absurd ((read_cons_self ..).symm.trans (heq c.1)) hv

/-- The reads of a memory whose first entry is known determine the reads of its rest. -/
theorem read_tail_eq {a : Nat} {v : Byte} {m m' : Memory} (h : wfFrom (a + 1) m = true) (h' : wfFrom (a + 1) m' = true)
    (heq : ∀ x, read ((a, v) :: m) x = read ((a, v) :: m') x) (x : Nat) : read m x = read m' x := by
  by_cases hx : x = a
  · rw [read_of_wfFrom_of_lt h (by omega), read_of_wfFrom_of_lt h' (by omega)]
  · rw [← read_cons_of_ne hx v m, heq, read_cons_of_ne hx]

/-- Canonical memories that read alike are equal, entry by entry. -/
theorem eq_of_read_eq {lo lo' : Nat} {m m' : Memory} (h : wfFrom lo m = true) (h' : wfFrom lo' m' = true)
    (heq : ∀ x, read m x = read m' x) : m = m' := by
  induction m generalizing lo lo' m' with
  | nil => exact (eq_nil_of_read_eq h' fun x => (heq x).symm).symm
  | cons c m ih =>
    obtain ⟨a, v⟩ := c
    obtain ⟨-, ha, hv, hm⟩ := wfFrom_cons.mp h
    cases m' with
    | nil => exact eq_nil_of_read_eq h heq
    | cons c' m' =>
      obtain ⟨b, u⟩ := c'
      obtain ⟨-, hb, hu, hm'⟩ := wfFrom_cons.mp h'
      have hba : b ≤ a := le_of_read_eq h (wfFrom_cons.mpr ⟨le_rfl, hb, hu, hm'⟩) heq
      have hab : a ≤ b := le_of_read_eq h' (wfFrom_cons.mpr ⟨le_rfl, ha, hv, hm⟩) fun x => (heq x).symm
      obtain rfl : a = b := le_antisymm hab hba
      obtain rfl : v = u := by simpa only [read_cons_self] using heq a
      rw [ih hm hm' (read_tail_eq hm hm' heq)]

/-! ### A block just written -/

/-- Byte k of a block just written is read back k addresses above its base. -/
theorem read_writeBytes_add (m : Memory) (a : Nat) {bs : List Byte} {k : Nat} (hk : k < bs.length) :
    read (writeBytes m a bs) (a + k) = bs[k] := by
  simp [read_writeBytes, hk]

end Sys2Proof.Machine.Memory

namespace Sys2Proof.Machine

/-- After V[0] to V[x] are stored from a on, address a + k holds V[k] (43_index_memory.md R194). -/
theorem State.read_storeBytes_regsUpTo (s : State) (a : Nat) {x k : Reg} (hk : k ≤ x) :
    Memory.read (s.storeBytes a (s.regsUpTo x)).mem (a + k.val) = s.reg k := by
  have hlen : k.val < (s.regsUpTo x).length := by rw [State.length_regsUpTo]; exact Nat.lt_succ_of_le hk
  rw [State.storeBytes_mem, Memory.read_writeBytes_add _ _ hlen, State.getElem_regsUpTo]

/-! ### The fetch -/

theorem State.toNat_fetchWord (s : State) : s.fetchWord.toNat =
    (Memory.read s.mem s.pc.toNat).toNat * 256 + (Memory.read s.mem (s.pc.toNat + 1)).toNat :=
  toNat_wordOfBytes ..

/-- Beyond the last fetchable PC a running machine halts FetchBounds (20_memory.md R67). -/
theorem step_of_fetchBounds {s : State} (hrun : s.ctl ≠ .halted) (hpc : 0xFFE < s.pc.toNat) :
    step s = .next (s.raiseHalt .fetchBounds) := by
  obtain ⟨hc, -⟩ | ⟨-, -, h⟩ | ⟨-, hle, -⟩ | ⟨-, hle, -⟩ := fetch_cases s
  · exact absurd hc hrun
  · rw [step, h]
  · exact absurd hle (by omega)
  · exact absurd hle (by omega)

/-- A running machine whose PC is fetchable executes the instruction it fetches (40_step_cycle.md R120, R122). -/
theorem step_of_decodeWord {s : State} {i : Instr} (hrun : s.ctl ≠ .halted) (hpc : s.pc.toNat ≤ 0xFFE)
    (hdec : decodeWord s.fetchWord = .ok i) : step s = exec i s := by
  obtain ⟨hc, -⟩ | ⟨-, hlt, -⟩ | ⟨-, -, ⟨e, herr⟩, -⟩ | ⟨-, -, j, hj, h⟩ := fetch_cases s
  · exact absurd hc hrun
  · exact absurd hpc (by omega)
  · simp [hdec] at herr
  · obtain rfl : i = j := by simpa [hdec] using hj
    simp only [step, h]

/-! ### Halts -/

@[simp] theorem State.raiseHalt_inj {s : State} {c d : HaltCause} : s.raiseHalt c = s.raiseHalt d ↔ c = d :=
  ⟨fun h => by simpa using congrArg State.cause h, congrArg s.raiseHalt⟩

theorem State.ne_raiseHalt {s t : State} {c : HaltCause} (h : t.ctl ≠ .halted) : t ≠ s.raiseHalt c := by
  rintro rfl
  exact h (State.raiseHalt_ctl s c)

/-- An instruction whose answer is not HALTED raises no halt. -/
theorem exec_ne_raiseHalt {i : Instr} {s t : State} (h : exec i s = .next t) (hctl : t.ctl ≠ .halted) (c : HaltCause) :
    exec i s ≠ .next (s.raiseHalt c) := by
  rw [h, ne_eq, Host.Outcome.next.injEq]
  exact State.ne_raiseHalt hctl

/-- An instruction that halts with d when P holds, and is not HALTED after it otherwise, halts with d and no other
cause, exactly when P holds. -/
theorem exec_halts_iff {i : Instr} {s : State} {P : Prop} {d : HaltCause}
    (hcases : ∀ t, exec i s = .next t → (P ∧ t = s.raiseHalt d) ∨ (¬ P ∧ t.ctl ≠ .halted)) (c : HaltCause) :
    exec i s = .next (s.raiseHalt c) ↔ c = d ∧ P := by
  obtain ⟨t, h, -⟩ := exec_cases i s
  obtain ⟨hP, rfl⟩ | ⟨hP, hctl⟩ := hcases t h
  · simp [h, hP, eq_comm]
  · exact iff_of_false (exec_ne_raiseHalt h hctl c) fun hc => hP hc.2

/-- The bounds check of R66 fails when there is a byte to access and the last one lies above 0xFFF. -/
theorem inMemory_eq_false_iff (base : Word) (len : Nat) :
    inMemory base len = false ↔ 1 ≤ len ∧ base.toNat + len - 1 > 0xFFF := by
  rw [← Bool.not_eq_true, inMemory_iff]; omega

/-- The bounds check of a block with last byte k fails when that byte lies above 0xFFF (20_memory.md R66). -/
theorem inMemory_succ_eq_false_iff (base : Word) (k : Nat) : inMemory base (k + 1) = false ↔ base.toNat + k > 0xFFF := by
  rw [inMemory_eq_false_iff]; omega

/-- A byte above 15 names no key (45_timers_input.md R233). -/
theorem keyOf_eq_none_iff (b : Byte) : keyOf b = none ↔ b.toNat > 15 := by
  simp [keyOf]; omega

section

variable (s : State) (x : Reg) (c : HaltCause)

/-- return halts on the empty stack (10_state.md R34). -/
theorem exec_ret_halts_iff : exec .ret s = .next (s.raiseHalt c) ↔ c = .stackUnderflow ∧ s.sp.val = 0 := by
  refine exec_halts_iff (fun t h => ?_) c
  obtain ⟨hsp, ht⟩ | ⟨j, hsp, rfl⟩ := exec_ret_cases h
  · exact .inl ⟨hsp, ht⟩
  · exact .inr ⟨by omega, by simp⟩

/-- call halts on the full stack (10_state.md R33). -/
theorem exec_call_halts_iff (nnn : BitVec 12) :
    exec (.call nnn) s = .next (s.raiseHalt c) ↔ c = .stackOverflow ∧ s.sp.val = 16 := by
  refine exec_halts_iff (fun t h => ?_) c
  obtain ⟨hsp, ht⟩ | ⟨hlt, rfl⟩ := exec_call_cases h
  · exact .inl ⟨hsp, ht⟩
  · exact .inr ⟨by omega, by simp⟩

/-- draw halts when a sprite byte lies above memory; without rows it has none (20_memory.md R66). -/
theorem exec_draw_halts_iff (y : Reg) (n : BitVec 4) : exec (.draw x y n) s = .next (s.raiseHalt c) ↔
    c = .memoryBounds ∧ n.toNat ≥ 1 ∧ s.idx.toNat + n.toNat - 1 > 0xFFF := by
  rw [ge_iff_le, ← inMemory_eq_false_iff]
  refine exec_halts_iff (fun t h => ?_) c
  obtain ⟨hin, _, -, rfl⟩ | hout := exec_draw_cases h
  · exact .inr ⟨by simp [hin], by simp⟩
  · exact .inl hout

/-- store-bcd halts when one of its three bytes lies above memory (20_memory.md R66). -/
theorem exec_storeBcd_halts_iff :
    exec (.storeBcd x) s = .next (s.raiseHalt c) ↔ c = .memoryBounds ∧ s.idx.toNat + 2 > 0xFFF := by
  rw [← inMemory_succ_eq_false_iff]
  refine exec_halts_iff (fun t h => ?_) c
  obtain ⟨hin, rfl⟩ | hout := exec_storeBcd_cases h
  · exact .inr ⟨by simp [hin], by simp⟩
  · exact .inl hout

/-- store-regs halts when its block reaches above memory (20_memory.md R66). -/
theorem exec_storeRegs_halts_iff :
    exec (.storeRegs x) s = .next (s.raiseHalt c) ↔ c = .memoryBounds ∧ s.idx.toNat + x.val > 0xFFF := by
  rw [← inMemory_succ_eq_false_iff]
  refine exec_halts_iff (fun t h => ?_) c
  obtain ⟨hin, rfl⟩ | hout := exec_storeRegs_cases h
  · exact .inr ⟨by simp [hin], by simp⟩
  · exact .inl hout

/-- load-regs halts when its block reaches above memory (20_memory.md R66). -/
theorem exec_loadRegs_halts_iff :
    exec (.loadRegs x) s = .next (s.raiseHalt c) ↔ c = .memoryBounds ∧ s.idx.toNat + x.val > 0xFFF := by
  rw [← inMemory_succ_eq_false_iff]
  refine exec_halts_iff (fun t h => ?_) c
  obtain ⟨hin, rfl⟩ | hout := exec_loadRegs_cases h
  · exact .inr ⟨by simp [hin], by simp⟩
  · exact .inl hout

/-- skip-key-pressed halts when Vx names no key (45_timers_input.md R233). -/
theorem exec_skipKeyPressed_halts_iff :
    exec (.skipKeyPressed x) s = .next (s.raiseHalt c) ↔ c = .keyIndexRange ∧ (s.reg x).toNat > 15 := by
  rw [← keyOf_eq_none_iff]
  refine exec_halts_iff (fun t h => ?_) c
  obtain hnone | ⟨k, hk, rfl⟩ := exec_skipKeyPressed_cases h
  · exact .inl hnone
  · exact .inr ⟨by simp [hk], by simp⟩

/-- skip-key-not-pressed halts when Vx names no key (45_timers_input.md R234). -/
theorem exec_skipKeyNotPressed_halts_iff :
    exec (.skipKeyNotPressed x) s = .next (s.raiseHalt c) ↔ c = .keyIndexRange ∧ (s.reg x).toNat > 15 := by
  rw [← keyOf_eq_none_iff]
  refine exec_halts_iff (fun t h => ?_) c
  obtain hnone | ⟨k, hk, rfl⟩ := exec_skipKeyNotPressed_cases h
  · exact .inl hnone
  · exact .inr ⟨by simp [hk], by simp⟩

/-- wait-key blocks or completes; it never halts (45_timers_input.md R235). -/
theorem exec_waitKey_ne_raiseHalt : exec (.waitKey x) s ≠ .next (s.raiseHalt c) := by
  obtain ⟨t, h, -⟩ := exec_cases (.waitKey x) s
  refine exec_ne_raiseHalt h ?_ c
  obtain ⟨-, rfl⟩ | ⟨_, _, -, rfl⟩ := exec_waitKey_cases h
  · simp
  · simp

end

end Sys2Proof.Machine

namespace Sys2Proof

open Sys2Proof.Machine

/-- Settles O14, by cases on the instruction: eight can halt, each by the lemma that says when, and the others answer
a state that is not HALTED. -/
theorem haltCausesByInstruction : Obligations.HaltCausesByInstruction := by
  intro i s c
  change exec i s = .next (s.raiseHalt c) ↔ _
  cases i with
  | ret => rw [exec_ret_halts_iff]; simp
  | call nnn => rw [exec_call_halts_iff]; simp
  | draw x y n => rw [exec_draw_halts_iff]; simp
  | storeBcd x => rw [exec_storeBcd_halts_iff]; simp
  | storeRegs x => rw [exec_storeRegs_halts_iff]; simp
  | loadRegs x => rw [exec_loadRegs_halts_iff]; simp
  | skipKeyPressed x => rw [exec_skipKeyPressed_halts_iff]; simp [State.reg]
  | skipKeyNotPressed x => rw [exec_skipKeyNotPressed_halts_iff]; simp [State.reg]
  | waitKey x => exact iff_of_false (exec_waitKey_ne_raiseHalt s x c) (by simp)
  | _ => exact iff_of_false (exec_ne_raiseHalt rfl (by simp) c) (by simp)

/-- Settles O23: reading determines a canonical memory entry by entry. -/
theorem canonicalMemoryIsUnique : Obligations.CanonicalMemoryIsUnique :=
  fun _ _ hwf hwf' heq => Memory.eq_of_read_eq hwf hwf' heq

/-- Settles O44: the two bytes at the new PC are bytes k and k + 1 of the block just stored. -/
theorem storeIsSeenByNextFetch : Obligations.StoreIsSeenByNextFetch := by
  intro x k s t h hrun hkx hpc k' hk'
  obtain ⟨-, rfl⟩ | ⟨-, rfl⟩ := exec_storeRegs_cases h
  · have hlow := s.read_storeBytes_regsUpTo s.dataAddr (le_of_lt hkx)
    have hhigh := s.read_storeBytes_regsUpTo s.dataAddr (Fin.le_def.mpr (hk'.trans_le hkx))
    rw [hk', ← Nat.add_assoc] at hhigh
    rw [State.toNat_fetchWord, hpc]
    exact congrArg₂ (fun hi lo : Byte => hi.toNat * 256 + lo.toNat) hlow hhigh
  · exact absurd (State.raiseHalt_ctl ..) hrun

/-- Settles O9: at 0xFFE both bytes of the word are in memory, and beyond it the fetch halts. -/
theorem fetchOutsideMemoryHalts : Obligations.FetchOutsideMemoryHalts := by
  intro s hrun
  refine ⟨step_of_fetchBounds hrun, fun hpc w hw i hdec => step_of_decodeWord hrun hpc.le ?_⟩
  have hword : s.fetchWord = w := BitVec.eq_of_toNat_eq (by rw [State.toNat_fetchWord, hpc, hw])
  rw [hword, hdec]

end Sys2Proof

/-! # Words and instructions: decoding and encoding

One equivalence ties the decoder to the encoder and the opcode table: a word decodes to i exactly when it is i's
encoding once i's don't-care bits are cleared. It rests on three readings of the 34 rows: the encoding decodes back, a
decoded word with those bits cleared is the encoding, and a word of a row decodes to an instruction of that row. -/

namespace Sys2Proof

/-! ### The encoding decodes back -/

/-- The fields that a format wrote select the instruction and give its operands again (30_encoding.md R91, R104). -/
theorem decodeWord_encodeWord (i : Instr) : decodeWord (encodeWord i) = .ok i := by
  cases i with
  -- the group alone selects: formats NNN, XNN, XY and XYN
  | jump _ | call _ | setIndex _ | jumpV0 _ => simp [encodeWord, decodeWord]
  | skipEqImm _ _ | skipNeImm _ _ | setImm _ _ | addImm _ _ | random _ _ => simp [encodeWord, decodeWord]
  | skipEqReg _ _ | skipNeReg _ _ | draw _ _ _ => simp [encodeWord, decodeWord]
  -- the group and the selector: formats XYS and XSS
  | clearScreen | ret => rfl
  | setReg _ _ | orReg _ _ | andReg _ _ | xorReg _ _ | addReg _ _ | sub _ _ | shr _ | subn _ _ | shl _ =>
    simp [encodeWord, decodeWord, decodeGroup8]
  | skipKeyPressed _ | skipKeyNotPressed _ => simp [encodeWord, decodeWord, decodeGroupE]
  | getDelay _ | waitKey _ | setDelay _ | setSound _ | addIndex _ | indexToSprite _ | storeBcd _ | storeRegs _
  | loadRegs _ => simp [encodeWord, decodeWord, decodeGroupF]

/-! ### Words under a mask -/

/-- Clearing bits that are 0 already leaves the word. -/
theorem and_not_eq_self {w d : Word} (h : w &&& d = 0) : w &&& ~~~ d = w := by
  calc w &&& ~~~ d = (w &&& d) ||| (w &&& ~~~ d) := by rw [h]; exact BitVec.zero_or.symm
    _ = w := by rw [← BitVec.and_or_distrib_left, BitVec.or_not_self, BitVec.and_allOnes]

/-- Clearing no bit. -/
theorem and_not_zero (w : Word) : w &&& ~~~ 0 = w := and_not_eq_self BitVec.and_zero

/-- Words that differ in no bit of a mask agree under it. -/
theorem and_eq_and_of_xor_and_eq_zero {w w' m : Word} (h : (w ^^^ w') &&& m = 0) : w &&& m = w' &&& m := by
  have hdistrib : (w &&& m) ^^^ (w' &&& m) = (w ^^^ w') &&& m := by
    ext; simp [Bool.and_xor_distrib_right]
  exact BitVec.xor_eq_zero_iff.mp (hdistrib.trans h)

/-- The bits outside 0x000F, as a number. -/
theorem toNat_and_FFF0 (w : Word) : (w &&& 0xFFF0).toNat = w.toNat / 16 * 16 := by
  have e : w &&& (0xFFF0 : Word) = (w >>> 4) <<< 4 := by
    apply BitVec.eq_of_getLsbD_eq; intro i hi; interval_cases i <;> simp
  have := w.isLt
  rw [e]; simp [Nat.shiftRight_eq_div_pow, Nat.shiftLeft_eq]; omega

/-- The bits outside 0x00F0, as a number. -/
theorem toNat_and_FF0F (w : Word) : (w &&& 0xFF0F).toNat = w.toNat / 256 * 256 + w.toNat % 16 := by
  have e : w &&& (0xFF0F : Word) = ((w >>> 8) <<< 8) + ((w <<< 12) >>> 12) := by
    rw [BitVec.add_eq_or_of_and_eq_zero] <;>
      (apply BitVec.eq_of_getLsbD_eq; intro i hi; interval_cases i <;> simp)
  have := w.isLt
  rw [e]; simp [Nat.shiftRight_eq_div_pow, Nat.shiftLeft_eq]; omega

/-! ### A word from its fields, with the bits outside the mask and the fields cleared (R92, R100) -/

section

variable {w : Word} {g n : BitVec 4} {nn : Byte}

/-- No bit cleared, format NNN. -/
theorem clear_none_eq_encodeNNN (hg : (groupOf w).toNat = g.toNat) : w &&& ~~~ 0 = encodeNNN g (fieldNNN w) := by
  apply BitVec.eq_of_toNat_eq
  rw [toNat_groupOf] at hg
  rw [and_not_zero, toNat_encodeNNN, toNat_fieldNNN]; omega

/-- No bit cleared, formats XNN and XSS. -/
theorem clear_none_eq_encodeXNN (hg : (groupOf w).toNat = g.toNat) (hs : (fieldNN w).toNat = nn.toNat) :
    w &&& ~~~ 0 = encodeXNN g (fieldX w) nn := by
  apply BitVec.eq_of_toNat_eq
  rw [toNat_groupOf] at hg
  rw [toNat_fieldNN] at hs
  rw [and_not_zero, toNat_encodeXNN, val_fieldX]; omega

/-- No bit cleared, formats XYS and XYN. -/
theorem clear_none_eq_encodeXYN (hg : (groupOf w).toNat = g.toNat) (hs : (fieldN w).toNat = n.toNat) :
    w &&& ~~~ 0 = encodeXYN g (fieldX w) (fieldY w) n := by
  apply BitVec.eq_of_toNat_eq
  rw [toNat_groupOf] at hg
  rw [toNat_fieldN] at hs
  rw [and_not_zero, toNat_encodeXYN, val_fieldX, val_fieldY]; omega

/-- Field x cleared: the instructions of group 0x0. -/
theorem clear_x_eq_encodeXNN (hg : (groupOf w).toNat = g.toNat) (hs : (fieldNN w).toNat = nn.toNat) :
    w &&& ~~~ 0x0F00 = encodeXNN g 0 nn := by
  apply BitVec.eq_of_toNat_eq
  rw [toNat_groupOf] at hg
  rw [toNat_fieldNN] at hs
  rw [toNat_encodeXNN]; refine (toNat_and_F0FF w).trans ?_; simp; omega

/-- Field y cleared: the shifts. -/
theorem clear_y_eq_encodeXYN (hg : (groupOf w).toNat = g.toNat) (hs : (fieldN w).toNat = n.toNat) :
    w &&& ~~~ 0x00F0 = encodeXYN g (fieldX w) 0 n := by
  apply BitVec.eq_of_toNat_eq
  rw [toNat_groupOf] at hg
  rw [toNat_fieldN] at hs
  rw [toNat_encodeXYN, val_fieldX]; refine (toNat_and_FF0F w).trans ?_; simp; omega

/-- Field n cleared: the skips on two registers. -/
theorem clear_n_eq_encodeXYN (hg : (groupOf w).toNat = g.toNat) :
    w &&& ~~~ 0x000F = encodeXYN g (fieldX w) (fieldY w) 0 := by
  apply BitVec.eq_of_toNat_eq
  rw [toNat_groupOf] at hg
  rw [toNat_encodeXYN, val_fieldX, val_fieldY]; refine (toNat_and_FFF0 w).trans ?_; simp; omega

end

/-! ### A decoded word, its don't-care bits cleared, is the encoding (R100, R104) -/

section

variable {w : Word} {i : Instr}

theorem clear_dontCare_of_decodeGroup0 (hg : (groupOf w).toNat = 0x0) (h : decodeGroup0 w = .ok i) :
    w &&& ~~~ i.row.dontCare = encodeWord i := by
  unfold decodeGroup0 at h
  split at h <;> cases h
  all_goals exact clear_x_eq_encodeXNN hg ‹_›

theorem clear_dontCare_of_decodeGroup8 (hg : (groupOf w).toNat = 0x8) (h : decodeGroup8 w = .ok i) :
    w &&& ~~~ i.row.dontCare = encodeWord i := by
  unfold decodeGroup8 at h
  split at h <;> cases h
  case h_7 hs => exact clear_y_eq_encodeXYN hg hs
  case h_9 hs => exact clear_y_eq_encodeXYN hg hs
  all_goals exact clear_none_eq_encodeXYN hg ‹_›

theorem clear_dontCare_of_decodeGroupE (hg : (groupOf w).toNat = 0xE) (h : decodeGroupE w = .ok i) :
    w &&& ~~~ i.row.dontCare = encodeWord i := by
  unfold decodeGroupE at h
  split at h <;> cases h
  all_goals exact clear_none_eq_encodeXNN hg ‹_›

theorem clear_dontCare_of_decodeGroupF (hg : (groupOf w).toNat = 0xF) (h : decodeGroupF w = .ok i) :
    w &&& ~~~ i.row.dontCare = encodeWord i := by
  unfold decodeGroupF at h
  split at h <;> cases h
  all_goals exact clear_none_eq_encodeXNN hg ‹_›

/-- Every word that decodes is the encoding of what it decodes to, but for the don't-care bits. -/
theorem clear_dontCare_of_decodeWord (h : decodeWord w = .ok i) : w &&& ~~~ i.row.dontCare = encodeWord i := by
  unfold decodeWord at h
  split at h
  case h_1 hg => exact clear_dontCare_of_decodeGroup0 hg h
  case h_9 hg => exact clear_dontCare_of_decodeGroup8 hg h
  case h_15 hg => exact clear_dontCare_of_decodeGroupE hg h
  case h_16 => exact clear_dontCare_of_decodeGroupF (by have := (groupOf w).isLt; grind) h
  all_goals cases h
  case h_2 hg | h_3 hg | h_11 hg | h_12 hg => exact clear_none_eq_encodeNNN hg
  case h_4 hg | h_5 hg | h_7 hg | h_8 hg | h_13 hg => exact clear_none_eq_encodeXNN hg rfl
  case h_6 hg | h_10 hg => exact clear_n_eq_encodeXYN hg
  case h_14 hg => exact clear_none_eq_encodeXYN hg rfl

/-! ### Every word of a row decodes to an instruction of that row (R95 to R99) -/

/-- In a row of mask 0xF000 the pattern gives the group. -/
theorem toNat_groupOf_of_holds_F000 {m : String} {p d : Word} (h : OpcodeRow.holds ⟨m, p, 0xF000, d⟩ w = true) :
    (groupOf w).toNat = p.toNat / 4096 := by
  have := (holds_F000 _ _ _ _).mp h
  rw [toNat_groupOf]; omega

/-- In a row of mask 0xF0FF the pattern gives the group and the selector in field nn. -/
theorem toNat_fields_of_holds_F0FF {m : String} {p d : Word} (h : OpcodeRow.holds ⟨m, p, 0xF0FF, d⟩ w = true) :
    (groupOf w).toNat = p.toNat / 4096 ∧ (fieldNN w).toNat = p.toNat % 256 := by
  have := (holds_F0FF _ _ _ _).mp h
  rw [toNat_groupOf, toNat_fieldNN]; omega

/-- In a row of mask 0xF00F the pattern gives the group and the selector in field n. -/
theorem toNat_fields_of_holds_F00F {m : String} {p d : Word} (h : OpcodeRow.holds ⟨m, p, 0xF00F, d⟩ w = true) :
    (groupOf w).toNat = p.toNat / 4096 ∧ (fieldN w).toNat = p.toNat % 16 := by
  have := (holds_F00F _ _ _ _).mp h
  rw [toNat_groupOf, toNat_fieldN]; omega

/-- The pattern's group and selector are those the decoder dispatches on. -/
theorem decodeWord_of_row_holds (h : i.row.holds w = true) : ∃ j, decodeWord w = .ok j ∧ j.row = i.row := by
  cases i with
  | clearScreen | ret =>
    obtain ⟨hg, hs⟩ := toNat_fields_of_holds_F0FF h
    simp [decodeWord, decodeGroup0, hg, hs]
  | setReg _ _ | orReg _ _ | andReg _ _ | xorReg _ _ | addReg _ _ | sub _ _ | shr _ | subn _ _ | shl _ =>
    obtain ⟨hg, hs⟩ := toNat_fields_of_holds_F00F h
    simp [decodeWord, decodeGroup8, hg, hs, Instr.row]
  | skipKeyPressed _ | skipKeyNotPressed _ =>
    obtain ⟨hg, hs⟩ := toNat_fields_of_holds_F0FF h
    simp [decodeWord, decodeGroupE, hg, hs, Instr.row]
  | getDelay _ | waitKey _ | setDelay _ | setSound _ | addIndex _ | indexToSprite _ | storeBcd _ | storeRegs _
  | loadRegs _ =>
    obtain ⟨hg, hs⟩ := toNat_fields_of_holds_F0FF h
    simp [decodeWord, decodeGroupF, hg, hs, Instr.row]
  | _ =>
    have hg := toNat_groupOf_of_holds_F000 h
    simp [decodeWord, hg, Instr.row]

/-! ### The opcode table -/

theorem row_mem_opcodeTable (i : Instr) : i.row ∈ opcodeTable := by
  cases i <;> simp [opcodeTable, Instr.row]

theorem exists_row_eq_of_mem_opcodeTable {r : OpcodeRow} (hr : r ∈ opcodeTable) : ∃ i : Instr, i.row = r := by
  obtain ⟨i, -, hi⟩ := List.mem_map.mp hr
  exact ⟨i, hi⟩

/-- No don't-care bit is under the mask (R100). -/
theorem not_dontCare_and_mask : ∀ r ∈ opcodeTable, ~~~ r.dontCare &&& r.mask = r.mask := by decide

open Laws.TableRow in
/-- The family TableRow, for every instruction: its encoding lies in its row, with 0 in the don't-care bits (R104). -/
theorem encodeWord_in_row : ∀ i, Statement i
  | .clearScreen => clearScreen | .ret => ret | .jump nnn => jump nnn | .call nnn => call nnn
  | .skipEqImm x nn => skipEqImm x nn | .skipNeImm x nn => skipNeImm x nn | .skipEqReg x y => skipEqReg x y
  | .setImm x nn => setImm x nn | .addImm x nn => addImm x nn | .setReg x y => setReg x y | .orReg x y => orReg x y
  | .andReg x y => andReg x y | .xorReg x y => xorReg x y | .addReg x y => addReg x y | .sub x y => sub x y
  | .shr x => shr x | .subn x y => subn x y | .shl x => shl x | .skipNeReg x y => skipNeReg x y
  | .setIndex nnn => setIndex nnn | .jumpV0 nnn => jumpV0 nnn | .random x nn => random x nn
  | .draw x y n => draw x y n | .skipKeyPressed x => skipKeyPressed x | .skipKeyNotPressed x => skipKeyNotPressed x
  | .getDelay x => getDelay x | .waitKey x => waitKey x | .setDelay x => setDelay x | .setSound x => setSound x
  | .addIndex x => addIndex x | .indexToSprite x => indexToSprite x | .storeBcd x => storeBcd x
  | .storeRegs x => storeRegs x | .loadRegs x => loadRegs x

/-! ### The equivalence, and what follows for rows and words -/

/-- A word whose bits but the don't-care bits are those of i's encoding lies in i's row. -/
theorem row_holds_of_clear_dontCare (h : w &&& ~~~ i.row.dontCare = encodeWord i) : i.row.holds w = true := by
  have hmask := not_dontCare_and_mask i.row (row_mem_opcodeTable i)
  have hrow : encodeWord i &&& i.row.mask = i.row.pattern := by
    simpa only [OpcodeRow.holds, beq_iff_eq] using (encodeWord_in_row i).1
  rw [OpcodeRow.holds, beq_iff_eq]
  calc w &&& i.row.mask = w &&& (~~~ i.row.dontCare &&& i.row.mask) := by rw [hmask]
    _ = encodeWord i &&& i.row.mask := by rw [← BitVec.and_assoc, h]
    _ = i.row.pattern := hrow

/-- A word decodes to i exactly when it is i's encoding but for i's don't-care bits. From right to left: the word lies
in i's row, so it decodes to some j of that row; then i and j have the same encoding. -/
theorem decodeWord_eq_ok_iff : decodeWord w = .ok i ↔ w &&& ~~~ i.row.dontCare = encodeWord i := by
  refine ⟨clear_dontCare_of_decodeWord, fun h => ?_⟩
  obtain ⟨j, hj, hrow⟩ := decodeWord_of_row_holds (row_holds_of_clear_dontCare h)
  have henc : encodeWord j = encodeWord i := by rw [← clear_dontCare_of_decodeWord hj, hrow, h]
  have hok : Except.ok j = Except.ok (ε := DecodeError) i := by
    rw [← decodeWord_encodeWord j, henc, decodeWord_encodeWord i]
  rw [hj, hok]

theorem row_holds_of_decodeWord (h : decodeWord w = .ok i) : i.row.holds w = true :=
  row_holds_of_clear_dontCare (clear_dontCare_of_decodeWord h)

/-- Every row that holds a word is the row of what the word decodes to. -/
theorem decodeWord_of_mem_opcodeTable {r : OpcodeRow} (hr : r ∈ opcodeTable) (h : r.holds w = true) :
    ∃ i, decodeWord w = .ok i ∧ i.row = r := by
  obtain ⟨i, rfl⟩ := exists_row_eq_of_mem_opcodeTable hr
  exact decodeWord_of_row_holds h

/-- A well-formed word is the encoding of what it decodes to (R104). -/
theorem exists_encodeWord_of_wordWellFormed (h : wordWellFormed w = true) : ∃ i, encodeWord i = w := by
  obtain ⟨hdef, hclean⟩ := Bool.and_eq_true_iff.mp h
  obtain ⟨r, hr, hw⟩ := List.any_eq_true.mp hdef
  obtain ⟨i, hi, rfl⟩ := decodeWord_of_mem_opcodeTable hr hw
  have hzero : w &&& i.row.dontCare = 0 := by simpa [hw] using List.all_eq_true.mp hclean _ hr
  exact ⟨i, by rw [← clear_dontCare_of_decodeWord hi, and_not_eq_self hzero]⟩

/-- An encoding is well formed: the only row that holds it is its own. -/
theorem wordWellFormed_encodeWord (i : Instr) : wordWellFormed (encodeWord i) = true := by
  obtain ⟨hrow, hzero⟩ := encodeWord_in_row i
  refine Bool.and_eq_true_iff.mpr ⟨List.any_eq_true.mpr ⟨i.row, row_mem_opcodeTable i, hrow⟩, ?_⟩
  refine List.all_eq_true.mpr fun r hr => ?_
  by_cases h : r.holds (encodeWord i) = true
  · obtain ⟨j, hj, rfl⟩ := decodeWord_of_mem_opcodeTable hr h
    cases (decodeWord_encodeWord i).symm.trans hj
    simp [hzero]
  · simp [h]

/-! ### The unknown words (R96 to R99, R101) -/

theorem decodeGroup0_error_iff : (∃ e, decodeGroup0 w = .error e) ↔ (fieldNN w).toNat ∉ [0xE0, 0xEE] := by
  unfold decodeGroup0
  split <;> simp_all

theorem decodeGroup8_error_iff : (∃ e, decodeGroup8 w = .error e) ↔
    (fieldN w).toNat ∉ [0x0, 0x1, 0x2, 0x3, 0x4, 0x5, 0x6, 0x7, 0xE] := by
  unfold decodeGroup8
  split <;> simp_all

theorem decodeGroupE_error_iff : (∃ e, decodeGroupE w = .error e) ↔ (fieldNN w).toNat ∉ [0x9E, 0xA1] := by
  unfold decodeGroupE
  split <;> simp_all

theorem decodeGroupF_error_iff : (∃ e, decodeGroupF w = .error e) ↔
    (fieldNN w).toNat ∉ [0x07, 0x0A, 0x15, 0x18, 0x1E, 0x29, 0x33, 0x55, 0x65] := by
  unfold decodeGroupF
  split <;> simp_all

/-- Only four groups hold unknown words (R94). -/
theorem decodeWord_error_iff : (∃ e, decodeWord w = .error e) ↔
    ((groupOf w).toNat = 0x0 ∧ ∃ e, decodeGroup0 w = .error e) ∨
    ((groupOf w).toNat = 0x8 ∧ ∃ e, decodeGroup8 w = .error e) ∨
    ((groupOf w).toNat = 0xE ∧ ∃ e, decodeGroupE w = .error e) ∨
    ((groupOf w).toNat = 0xF ∧ ∃ e, decodeGroupF w = .error e) := by
  unfold decodeWord
  split
  case h_16 =>
    have hg : (groupOf w).toNat = 0xF := by have := (groupOf w).isLt; grind
    simp [hg]
  all_goals simp [*]

end

/-! ### The obligations -/

/-- Settles O1: the two bytes make the encoded word again, and its fields select the instruction. -/
theorem decodeOfEncode : Obligations.DecodeOfEncode := by
  intro i rest
  simp [encode, bytesOfWord, decode, decodeWord_encodeWord, Except.map]

/-- Settles O2: the row of what a word decodes to holds it, and every row that holds it is that row. -/
theorem decodeMatchesOpcodeTable : Obligations.DecodeMatchesOpcodeTable :=
  fun _ => ⟨fun _ => row_holds_of_decodeWord, fun _ => decodeWord_of_mem_opcodeTable⟩

/-- Settles O3: the two words agree once the don't-care bits are cleared, and only that matters to the decoder. -/
theorem dontCareBitsDoNotMatter : Obligations.DontCareBitsDoNotMatter := by
  intro w w' i h hxor
  have hagree : w &&& ~~~ i.row.dontCare = w' &&& ~~~ i.row.dontCare := and_eq_and_of_xor_and_eq_zero hxor
  rw [decodeWord_eq_ok_iff] at h ⊢
  rw [← hagree, h]

/-- Settles O4: a clean word is the encoding of what it decodes to, and only its own row holds an encoding. -/
theorem wellFormedWordsAreEncodings : Obligations.WellFormedWordsAreEncodings := by
  refine fun w => ⟨exists_encodeWord_of_wordWellFormed, ?_⟩
  rintro ⟨i, rfl⟩
  exact wordWellFormed_encodeWord i

/-- Settles O5, group by group: a word is unknown when its group's secondary dispatch rejects it. -/
theorem unknownWordsBySelector : Obligations.UnknownWordsBySelector := by
  intro w
  rw [decodeWord_error_iff, decodeGroup0_error_iff, decodeGroup8_error_iff, decodeGroupE_error_iff,
    decodeGroupF_error_iff, toNat_groupOf, toNat_fieldN, toNat_fieldNN]

/-- Settles O6: each word is closed, and the decoder evaluates it. -/
theorem sampleWordsDecode : Obligations.SampleWordsDecode :=
  ⟨rfl, rfl, rfl, rfl, rfl, rfl, rfl, rfl, rfl, rfl, rfl⟩

end Sys2Proof

/-! # The step: its outcomes, its halts, its suspension, and what it leaves alone

`StepEnds` lists the five ways a step can end, each with the state it answers, and `stepEnds_of_step` says that there is
no other. The statements about outcomes, halts and suspension read their clauses off that list. -/

namespace Sys2Proof.Machine

section

variable {s t : State} {i : Instr}

/-! ### The fetched word -/

/-- The fetched word is the word whose value the two bytes at PC make (40_step_cycle.md R122). -/
theorem State.fetchWord_eq_of_toNat {w : Word} (hw : w.toNat =
    (Memory.read s.mem s.pc.toNat).toNat * 256 + (Memory.read s.mem (s.pc.toNat + 1)).toNat) : s.fetchWord = w :=
  BitVec.eq_of_toNat_eq (s.toNat_fetchWord.trans hw.symm)

/-! ### Suspension -/

theorem pressedKeys_eq_nil_iff {key : Vector Bool 16} : pressedKeys key = [] ↔ ∀ k : Key, key[k] = false := by
  simp [List.eq_nil_iff_forall_not_mem]

/-- Only wait-key suspends, and only while no key is down (40_step_cycle.md R126). -/
theorem eq_waitKey_of_exec_awaitKey (h : exec i s = .next t) (hctl : t.ctl = .awaitKey) :
    (∃ x, i = .waitKey x) ∧ pressedKeys s.key = [] := by
  cases i with
  | waitKey x =>
    obtain ⟨hkeys, -⟩ | ⟨_, _, -, rfl⟩ := exec_waitKey_cases h
    · exact ⟨⟨x, rfl⟩, hkeys⟩
    · simp at hctl
  | ret => obtain ⟨-, rfl⟩ | ⟨_, -, rfl⟩ := exec_ret_cases h <;> simp at hctl
  | call _ => obtain ⟨-, rfl⟩ | ⟨_, rfl⟩ := exec_call_cases h <;> simp at hctl
  | draw _ _ _ => obtain ⟨-, _, -, rfl⟩ | ⟨-, rfl⟩ := exec_draw_cases h <;> simp at hctl
  | storeBcd _ => obtain ⟨-, rfl⟩ | ⟨-, rfl⟩ := exec_storeBcd_cases h <;> simp at hctl
  | storeRegs _ => obtain ⟨-, rfl⟩ | ⟨-, rfl⟩ := exec_storeRegs_cases h <;> simp at hctl
  | loadRegs _ => obtain ⟨-, rfl⟩ | ⟨-, rfl⟩ := exec_loadRegs_cases h <;> simp at hctl
  | skipKeyPressed _ => obtain ⟨-, rfl⟩ | ⟨_, -, rfl⟩ := exec_skipKeyPressed_cases h <;> simp at hctl
  | skipKeyNotPressed _ => obtain ⟨-, rfl⟩ | ⟨_, -, rfl⟩ := exec_skipKeyNotPressed_cases h <;> simp at hctl
  | _ => cases h; simp at hctl

/-! ### The ways a step can end -/

/-- `StepEnds s t`: a step from s can end in t, by one row of the outcome table (40_step_cycle.md R125); Halted has two
constructors, for a machine that was HALTED and for one that is now. -/
inductive StepEnds (s : State) : State → Prop where
  /-- the machine was HALTED (R121) -/
  | stayedHalted (hhalted : s.ctl = .halted) : StepEnds s s.stayHalted
  /-- a halt was raised (R127) -/
  | haltRaised (c : HaltCause) : StepEnds s (s.raiseHalt c)
  /-- an unknown word was skipped (60_exceptions.md R254) -/
  | skipped {e : DecodeError} (hdec : decodeWord s.fetchWord = .error e) : StepEnds s
      { s with pc := s.pc + 2, ctl := .ready, lastOutcome := some (.unknownSkipped s.fetchWord s.pc) }
  /-- wait-key found no key down (R126) -/
  | blocked {x : Reg} (hdec : decodeWord s.fetchWord = .ok (.waitKey x)) (hkeys : pressedKeys s.key = []) :
      StepEnds s s.block
  /-- an instruction completed (R124) -/
  | executed {i : Instr} {t : State} (hdec : decodeWord s.fetchWord = .ok i) (h : exec i s = .next t)
      (hcompleted : Completed s t) : StepEnds s t

/-- The decoded instruction completes, blocks or halts. -/
theorem stepEnds_of_exec (hdec : decodeWord s.fetchWord = .ok i) (h : exec i s = .next t) : StepEnds s t := by
  obtain ⟨t', h', hends⟩ := exec_cases i s
  obtain rfl : t = t' := by simpa [h] using h'
  obtain hcompleted | rfl | ⟨c, rfl⟩ := hends
  · exact .executed hdec h hcompleted
  · obtain ⟨⟨x, rfl⟩, hkeys⟩ := eq_waitKey_of_exec_awaitKey h rfl
    exact .blocked hdec hkeys
  · exact .haltRaised c

/-- An unknown word is skipped or halts, by UNKNOWN_POLICY. -/
theorem stepEnds_unknown {e : DecodeError} (hdec : decodeWord s.fetchWord = .error e) :
    StepEnds s (s.unknown s.fetchWord) := by
  obtain ⟨-, h⟩ | ⟨-, h⟩ := unknown_cases s s.fetchWord
  · rw [h]; exact .skipped hdec
  · rw [h]; exact .haltRaised .unknownInstruction

/-- A step ends in one of the ways listed. -/
theorem stepEnds_of_step (h : step s = .next t) : StepEnds s t := by
  obtain ⟨hhalted, hf⟩ | ⟨-, -, hf⟩ | ⟨-, -, ⟨e, hdec⟩, hf⟩ | ⟨-, -, i, hdec, hf⟩ := fetch_cases s
  · simp only [step, hf] at h; cases h
    exact .stayedHalted hhalted
  · simp only [step, hf] at h; cases h
    exact .haltRaised .fetchBounds
  · simp only [step, hf] at h; cases h
    exact stepEnds_unknown hdec
  · simp only [step, hf] at h
    exact stepEnds_of_exec hdec h

/-! ### RD and the timers (40_step_cycle.md R128) -/

/-- The two instructions that write RD set it (10_state.md R39). -/
theorem exec_keeps_rd_set (h : exec i s = .next t) (hrd : s.rd = true) : t.rd = true := by
  by_contra hcleared
  obtain ⟨-, hwriters, -⟩ := writersOfEachState i s t h
  obtain rfl | ⟨x, y, n, rfl⟩ := hwriters (.inr fun heq => hcleared (heq.trans hrd))
  · cases h; exact hcleared rfl
  · obtain ⟨-, _, -, rfl⟩ | ⟨-, rfl⟩ := exec_draw_cases h
    · exact hcleared rfl
    · exact hcleared hrd

/-- An instruction that changes DT is a set-delay, and DT becomes Vx (10_state.md R35). -/
theorem exec_dt_eq_of_ne (h : exec i s = .next t) (hdt : t.dt ≠ s.dt) : ∃ x, i = .setDelay x ∧ t.dt = s.reg x := by
  obtain ⟨-, -, -, -, -, hwriters, -⟩ := writersOfEachState i s t h
  obtain ⟨x, rfl⟩ := hwriters hdt
  cases h; exact ⟨x, rfl, rfl⟩

/-- An instruction that changes ST is a set-sound, and ST becomes Vx (10_state.md R36). -/
theorem exec_st_eq_of_ne (h : exec i s = .next t) (hst : t.st ≠ s.st) : ∃ x, i = .setSound x ∧ t.st = s.reg x := by
  obtain ⟨-, -, -, -, -, -, hwriters, -⟩ := writersOfEachState i s t h
  obtain ⟨x, rfl⟩ := hwriters hst
  cases h; exact ⟨x, rfl, rfl⟩

/-! ### The end of a run -/

/-- A PC in memory is the address of its own low 12 bits. -/
theorem addrOf_setWidth_of_le {a : Word} (ha : a.toNat ≤ 0xFFE) : addrOf (a.setWidth 12) = a := by
  apply BitVec.eq_of_toNat_eq
  rw [toNat_addrOf, BitVec.toNat_setWidth]
  omega

/-- Completing at the present PC changes nothing in a READY machine that reported Executed. -/
theorem State.complete_pc_eq_self (hready : s.ctl = .ready) (hexecuted : s.lastOutcome = some .executed) :
    s.complete s.pc = s := by
  rw [State.complete, ← hready, ← hexecuted]

end

end Sys2Proof.Machine

namespace Sys2Proof

open Sys2Proof.Machine

/-- Settles O12, by cases on how the step ends. -/
theorem outcomeMatchesControl : Obligations.OutcomeMatchesControl := by
  intro s t h
  cases stepEnds_of_step h with
  | stayedHalted hhalted => exact .inr (.inr (.inr ⟨rfl, hhalted, rfl⟩))
  | haltRaised c => exact .inr (.inr (.inr ⟨rfl, rfl, rfl⟩))
  | skipped hdec => exact .inr (.inr (.inl ⟨rfl, rfl, rfl, _, hdec⟩))
  | blocked _ _ => exact .inr (.inl ⟨rfl, rfl, rfl⟩)
  | executed hdec hexec hcompleted => exact .inl ⟨hcompleted.lastOutcome, hcompleted.ctl, _, hdec, hexec⟩

/-- Settles O13: of the ways a step can end, only a raised halt takes a machine that is not HALTED into HALTED. -/
theorem haltsArePrecise : Obligations.HaltsArePrecise := by
  intro s t hrun h hctl
  cases stepEnds_of_step h with
  | stayedHalted hhalted => exact absurd hhalted hrun
  | haltRaised c => exact ⟨c, rfl⟩
  | skipped _ => cases hctl
  | blocked _ _ => cases hctl
  | executed _ _ hcompleted => simp [hcompleted.ctl] at hctl

/-- Settles O15: of the ways a step can end, only the blocked one leaves CTL at AWAIT_KEY. -/
theorem onlyWaitKeyBlocks : Obligations.OnlyWaitKeyBlocks := by
  intro s t h hctl
  cases stepEnds_of_step h with
  | stayedHalted hhalted => simp [hhalted] at hctl
  | haltRaised c => cases hctl
  | skipped _ => cases hctl
  | blocked hdec hkeys => exact ⟨rfl, ⟨_, hdec⟩, pressedKeys_eq_nil_iff.mp hkeys⟩
  | executed _ _ hcompleted => simp [hcompleted.ctl] at hctl

/-- Settles O16: a step that completes an instruction writes what the instruction may write, and any other step leaves
KEY, the parameters, RD, DT and ST as they are. -/
theorem stepLeavesTimersKeysRedraw : Obligations.StepLeavesTimersKeysRedraw := by
  intro s t h
  cases stepEnds_of_step h with
  | executed hdec hexec hcompleted =>
    refine ⟨hcompleted.key, hcompleted.params, exec_keeps_rd_set hexec, fun hdt => ?_, fun hst => ?_⟩
    · obtain ⟨x, rfl, hx⟩ := exec_dt_eq_of_ne hexec hdt
      exact ⟨x, hdec, hx⟩
    · obtain ⟨x, rfl, hx⟩ := exec_st_eq_of_ne hexec hst
      exact ⟨x, hdec, hx⟩
  | _ => exact ⟨rfl, rfl, id, absurd rfl, absurd rfl⟩

/-- Settles O7: the word with the value of the two bytes at PC is the word fetched. -/
theorem stepRunsDecodedInstruction : Obligations.StepRunsDecodedInstruction := by
  intro s w i hrun hpc hw hdec
  exact step_of_decodeWord hrun hpc (by rw [State.fetchWord_eq_of_toNat hw, hdec])

/-- Settles O8: the HALTED check stands before the fetch. -/
theorem haltedStepChangesNothing : Obligations.HaltedStepChangesNothing := by
  intro s hhalted
  obtain ⟨-, h⟩ | ⟨hrun, -⟩ | ⟨hrun, -⟩ | ⟨hrun, -⟩ := step_cases s
  · exact h
  all_goals exact absurd hhalted hrun

/-- Settles O11: a step that executes an instruction answers what the instruction answers, and every instruction answers
a state. -/
theorem everyStepAnswersNext : Obligations.EveryStepAnswersNext := by
  intro s
  obtain ⟨-, h⟩ | ⟨-, _, h⟩ | ⟨-, -, h⟩ | ⟨-, i, -, h⟩ := step_cases s
  · exact ⟨_, h⟩
  · exact ⟨_, h⟩
  · exact ⟨_, h⟩
  · obtain ⟨t, ht, -⟩ := exec_cases i s
    exact ⟨t, h.trans ht⟩

/-- Settles O24: the jump completes at the PC it stands at. -/
theorem selfJumpChangesNothing : Obligations.SelfJumpChangesNothing := by
  intro s hself hready hexecuted
  obtain ⟨hrun, hpc, hdec⟩ := hself
  calc step s = exec (.jump (s.pc.setWidth 12)) s := step_of_decodeWord hrun hpc hdec
    _ = .next (s.complete (addrOf (s.pc.setWidth 12))) := rfl
    _ = .next s := by rw [addrOf_setWidth_of_le hpc, State.complete_pc_eq_self hready hexecuted]

end Sys2Proof

/-! # Control flow: jumps, calls, returns and skips (41_control_flow.md)

A word with the pattern under the mask has the pattern's group and selector, on which the decoder dispatches; the fields
it reads are the statements' fields. What call and return do on a stack that has room, or an entry, follows from their
inversion lemmas, and a skip is told by the check it makes. -/

namespace Sys2Proof.Claims

open Sys2Proof.Machine

/-! ### The fields of a word as numbers (00_scope.md R10) -/

theorem fieldX_eq_xOf (w : Word) : fieldX w = xOf w :=
  Fin.ext (val_fieldX w)

theorem fieldY_eq_yOf (w : Word) : fieldY w = yOf w :=
  Fin.ext (val_fieldY w)

theorem fieldNN_eq_nnOf (w : Word) : fieldNN w = nnOf w :=
  BitVec.eq_of_toNat_eq (toNat_fieldNN w)

theorem fieldNNN_eq_nnnOf (w : Word) : fieldNNN w = nnnOf w :=
  BitVec.eq_of_toNat_eq (toNat_fieldNNN w)

/-! ### Encodings by group and selector (30_encoding.md R95 to R99) -/

section

variable {p : Word} {mk : Word → Instr}

/-- Under the mask 0xF000 it is enough to decode the words of the pattern's group. -/
theorem encoded_F000 (h : ∀ w, (groupOf w).toNat = p.toNat / 4096 → decodeWord w = .ok (mk w)) :
    Encoded p 0xF000 mk :=
  fun w hw => h w (toNat_groupOf_of_holds_F000 (m := "") (d := 0) (beq_iff_eq.mpr hw))

/-- Under the mask 0xF0FF it is enough to decode the words of the pattern's group and its selector in field nn. -/
theorem encoded_F0FF (h : ∀ w, (groupOf w).toNat = p.toNat / 4096 → (fieldNN w).toNat = p.toNat % 256 →
    decodeWord w = .ok (mk w)) : Encoded p 0xF0FF mk := by
  intro w hw
  obtain ⟨hg, hs⟩ := toNat_fields_of_holds_F0FF (m := "") (d := 0) (beq_iff_eq.mpr hw)
  exact h w hg hs

end

/-! ### From the operations to the statements -/

section

variable {i : Instr} {s : State}

theorem halts_of_exec {c : HaltCause} (h : exec i s = .next (s.raiseHalt c)) : Halts i s c :=
  ⟨_, h⟩

theorem completes_of_exec {t : State} {a : Word} (h : exec i s = .next (t.complete a)) :
    Completes i s { t with pc := a } :=
  ⟨_, h⟩

/-- An instruction that skips by a check skips by the condition the check decides. -/
theorem skipsIf_of_exec {b : Bool} {c : Prop} [Decidable c] (h : exec i s = .next (s.skipIf b)) (hb : b = true ↔ c) :
    SkipsIf i s c := by
  simp only [State.skipIf, hb] at h
  exact completes_of_exec h

end

end Sys2Proof.Claims

namespace Sys2Proof.Machine

/-! ### call and return when they complete -/

/-- call with room on the stack: PC is pushed (10_state.md R33, 41_control_flow.md R143). -/
theorem exec_call_of_lt (nnn : BitVec 12) {s : State} (hlt : s.sp.val < 16) : exec (.call nnn) s = .next
    ({ s with stack := s.stack.set s.sp.val s.pc hlt, sp := ⟨s.sp.val + 1, Nat.succ_lt_succ hlt⟩ }.complete
      (addrOf nnn)) := by
  obtain ⟨t, h, -⟩ := exec_cases (.call nnn) s
  obtain ⟨hfull, -⟩ | ⟨_, rfl⟩ := exec_call_cases h
  · exact absurd hfull hlt.ne
  · exact h

/-- return with the entry a on top of the stack: a is popped and kept (10_state.md R34, 41_control_flow.md R141). -/
theorem exec_ret_of_top {s : State} {j : Fin 16} {a : Word} (hsp : s.sp.val = j.val + 1) (ha : s.stack[j] = a) :
    exec .ret s = .next ({ s with sp := j.castSucc }.complete (a + 2)) := by
  subst ha
  obtain ⟨t, h, -⟩ := exec_cases .ret s
  obtain ⟨hempty, -⟩ | ⟨k, hk, rfl⟩ := exec_ret_cases h
  · exact absurd (hempty.symm.trans hsp) (Nat.succ_ne_zero j).symm
  · obtain rfl : j = k := Fin.ext (by omega)
    exact h

/-- A write to the call stack changes that entry and no other (10_state.md R33). -/
theorem getElem_stack_set (stack : Vector Word 16) {n : Nat} (hn : n < 16) (a : Word) (j : Fin 16) :
    (stack.set n a hn)[j] = if j.val = n then a else stack[j] := by
  simp only [Fin.getElem_fin, Vector.getElem_set, eq_comm]

end Sys2Proof.Machine

namespace Sys2Proof

open Sys2Proof.Machine Sys2Proof.Claims

/-- Settles O27: Push halts on the full stack, and otherwise stores PC at STACK[SP]. -/
theorem callPushesItsOwnAddress : Obligations.CallPushesItsOwnAddress := by
  refine ⟨encoded_F000 fun w hg => by simp [decodeWord, hg, fieldNNN_eq_nnnOf],
    fun nnn s => ⟨fun hfull => ?_, fun hlt => ?_⟩⟩
  · exact halts_of_exec ((exec_call_halts_iff s _ nnn).mpr ⟨rfl, hfull⟩)
  · exact ⟨_, _, _, toNat_addrOf nnn, rfl, getElem_stack_set s.stack hlt s.pc,
      completes_of_exec (exec_call_of_lt nnn hlt)⟩

/-- Settles O28: Pop halts on the empty stack, and otherwise yields the top entry. -/
theorem returnGoesPastTheCall : Obligations.ReturnGoesPastTheCall := by
  refine ⟨encoded_F0FF fun w hg hs => by simp [decodeWord, decodeGroup0, hg, hs],
    fun s => ⟨fun hempty => ?_, fun j hsp => ?_⟩⟩
  · exact halts_of_exec ((exec_ret_halts_iff s _).mpr ⟨rfl, hempty⟩)
  · exact ⟨j.castSucc, rfl, completes_of_exec (exec_ret_of_top hsp rfl)⟩

/-- Settles O29: a call that does not halt leaves its own address on top of the stack, at the SP before it, and the
return pops that entry. -/
theorem returnUndoesCall : Obligations.ReturnUndoesCall := by
  intro nnn s t h hrun
  obtain ⟨-, rfl⟩ | ⟨hlt, rfl⟩ := exec_call_cases h
  · exact absurd (State.raiseHalt_ctl ..) hrun
  · have hset := getElem_stack_set s.stack hlt s.pc
    have htop : (s.stack.set s.sp.val s.pc hlt)[(⟨s.sp.val, hlt⟩ : Fin 16)] = s.pc := by rw [hset, if_pos rfl]
    have hbelow (j : Fin 16) (hj : j.val < s.sp.val) : (s.stack.set s.sp.val s.pc hlt)[j] = s.stack[j] := by
      rw [hset, if_neg hj.ne]
    exact ⟨_, hbelow, _, (exec_ret_of_top (j := ⟨s.sp.val, hlt⟩) rfl htop).trans rfl⟩

/-- Settles O30: each skip makes the check that decides its condition. -/
theorem skipsTestRegisters : Obligations.SkipsTestRegisters := by
  refine ⟨encoded_F000 fun w hg => ?_, encoded_F000 fun w hg => ?_, encoded_F000 fun w hg => ?_,
    encoded_F000 fun w hg => ?_, fun x y nn s => ⟨?_, ?_, ?_, ?_⟩⟩
  · simp [decodeWord, hg, fieldX_eq_xOf, fieldNN_eq_nnOf]
  · simp [decodeWord, hg, fieldX_eq_xOf, fieldNN_eq_nnOf]
  · simp [decodeWord, hg, fieldX_eq_xOf, fieldY_eq_yOf]
  · simp [decodeWord, hg, fieldX_eq_xOf, fieldY_eq_yOf]
  · exact skipsIf_of_exec rfl beq_iff_eq
  · exact skipsIf_of_exec rfl bne_iff_ne
  · exact skipsIf_of_exec rfl beq_iff_eq
  · exact skipsIf_of_exec rfl bne_iff_ne

/-- Settles O25: nnn is the target as it stands. -/
theorem jumpSetsPc : Obligations.JumpSetsPc :=
  ⟨encoded_F000 fun w hg => by simp [decodeWord, hg, fieldNNN_eq_nnnOf],
    fun nnn _ => ⟨addrOf nnn, toNat_addrOf nnn, completes_of_exec rfl⟩⟩

/-- Settles O26: the sum of nnn and V[0] fits 16 bits. -/
theorem jumpV0AddsRegisterZero : Obligations.JumpV0AddsRegisterZero :=
  ⟨encoded_F000 fun w hg => by simp [decodeWord, hg, fieldNNN_eq_nnnOf],
    fun nnn s => ⟨_, toNat_addrOf_add_wide nnn (s.reg 0), completes_of_exec rfl⟩⟩

end Sys2Proof

/-! # The arithmetic, bitwise, shift and random instructions (42_alu.md)

Each instruction of the family advances by 2 after one of three writes to the registers: a result alone, a result and
then the flag, a flag and then the shift. What each write makes of every register gives one rule per write; what is left
of an instruction is its values as numbers. -/

namespace Sys2Proof.Machine

/-! ### The values as numbers -/

section

variable (a b : Byte)

/-- Addition is modulo 256 (00_scope.md R9). -/
theorem add_eq_ofNat : a + b = BitVec.ofNat 8 ((a.toNat + b.toNat) % 256) := by
  bv_omega

/-- Subtraction is modulo 256 (00_scope.md R9). -/
theorem sub_eq_ofNat : a - b = BitVec.ofNat 8 ((a.toNat + 256 - b.toNat) % 256) := by
  bv_omega

theorem ushiftRight_one_eq_ofNat : a >>> 1 = BitVec.ofNat 8 (a.toNat / 2) :=
  BitVec.eq_of_toNat_eq (by simp [Nat.shiftRight_eq_div_pow]; omega)

theorem shiftLeft_one_eq_ofNat : a <<< 1 = BitVec.ofNat 8 (a.toNat * 2 % 256) :=
  BitVec.eq_of_toNat_eq (by simp [Nat.shiftLeft_eq])

theorem carryFlag_eq_ite : carryFlag a b = if a.toNat + b.toNat > 255 then 1 else 0 := by
  simp [carryFlag, flagByte]

theorem noBorrowFlag_eq_ite : noBorrowFlag a b = if b.toNat > a.toNat then 0 else 1 := by
  by_cases h : b.toNat > a.toNat <;> simp [noBorrowFlag, flagByte, h]

theorem lowBitFlag_eq_ofNat : lowBitFlag a = BitVec.ofNat 8 (a.toNat % 2) :=
  BitVec.eq_of_toNat_eq (by simp [lowBitFlag, Nat.and_one_is_mod]; omega)

theorem highBitFlag_eq_ofNat : highBitFlag a = BitVec.ofNat 8 (a.toNat / 128) :=
  BitVec.eq_of_toNat_eq (by simp [highBitFlag, Nat.shiftRight_eq_div_pow]; omega)

/-- The flag of shr, 0 or 1, is shifted out when it is itself the operand (D15). -/
theorem lowBitFlag_shiftRight_one : lowBitFlag a >>> 1 = 0 := by
  have hbit : (BitVec.ofNat 8 (a.toNat % 2)).toNat / 2 = 0 := by simp; omega
  rw [lowBitFlag_eq_ofNat, ushiftRight_one_eq_ofNat, hbit]
  rfl

/-- The flag of shl, 0 or 1, is doubled when it is itself the operand (D15). -/
theorem highBitFlag_shiftLeft_one : highBitFlag a <<< 1 = if a.toNat ≥ 128 then 2 else 0 := by
  have := a.isLt
  rw [highBitFlag_eq_ofNat, shiftLeft_one_eq_ofNat]
  split
  next h =>
    have hbit : a.toNat / 128 = 1 := by omega
    rw [hbit]; rfl
  next h =>
    have hbit : a.toNat / 128 = 0 := by omega
    rw [hbit]; rfl

end

end Sys2Proof.Machine

namespace Sys2Proof.Claims

open Sys2Proof.Machine

/-- Under the mask 0xF00F it is enough to decode the words of the pattern's group and its selector in field n. -/
theorem encoded_F00F {p : Word} {mk : Word → Instr} (h : ∀ w, (groupOf w).toNat = p.toNat / 4096 →
    (fieldN w).toNat = p.toNat % 16 → decodeWord w = .ok (mk w)) : Encoded p 0xF00F mk := by
  intro w hw
  obtain ⟨hg, hs⟩ := toNat_fields_of_holds_F00F (m := "") (d := 0) (beq_iff_eq.mpr hw)
  exact h w hg hs

/-! ### From the register writes to the statements -/

section

variable {i : Instr} {s : State} {x : Reg}

/-- An instruction that advances from a state that differs from s in the registers only. -/
theorem registersBecome_of_exec {t : State} {v' : Reg → Byte} (h : exec i s = .next t.advance)
    (hframe : t = { s with v := t.v }) (hreg : ∀ k, t.reg k = v' k) : RegistersBecome i s v' := by
  rw [hframe] at h
  exact ⟨t.v, completes_of_exec h, hreg⟩

/-- An instruction that only writes a result to Vx. -/
theorem registersBecome_of_setReg {b c : Byte} (h : exec i s = .next (s.setReg x b).advance) (hb : b = c) :
    RegistersBecome i s (fun k => if k = x then c else s.v[k]) := by
  subst hb
  exact registersBecome_of_exec h rfl (s.reg_setReg x · b)

/-- An instruction that writes a result to Vx and then the flag, which stands with x = 15. -/
theorem registersBecome_of_resultThenFlag {r f r' f' : Byte} (h : exec i s = .next (s.resultThenFlag x r f).advance)
    (hf : f = f') (hr : r = r') :
    RegistersBecome i s (fun k => if k = 15 then f' else if k = x then r' else s.v[k]) := by
  subst hf hr
  exact registersBecome_of_exec h rfl (s.reg_resultThenFlag x · r f)

/-- An instruction that writes the flag and then shifts Vx, which with x = 15 is the flag. -/
theorem registersBecome_of_flagThenShift {f f' shiftedFlag shifted : Byte} {g : Byte → Byte}
    (h : exec i s = .next (s.flagThenShift x f g).advance) (hf : f = f') (hgf : g f = shiftedFlag)
    (hg : g s.v[x] = shifted) :
    RegistersBecome i s (fun k =>
      if k = 15 then (if x = 15 then shiftedFlag else f') else if k = x then shifted else s.v[k]) := by
  subst hf hgf hg
  refine registersBecome_of_exec h rfl fun k => (s.reg_flagThenShift x k f g).trans ?_
  by_cases hk : k = x
  · subst hk
    by_cases hflag : k = 15 <;> simp [flagReg, State.reg, hflag]
  · by_cases hflag : k = 15
    · subst hflag
      simp [flagReg, hk, Ne.symm hk]
    · simp [flagReg, State.reg, hk, hflag]

end

end Sys2Proof.Claims

namespace Sys2Proof

open Sys2Proof.Machine Sys2Proof.Claims

/-- Settles O32: each writes its result to Vx and no flag. -/
theorem copyAndBitwise : Obligations.CopyAndBitwise := by
  refine ⟨encoded_F00F fun w hg hs => ?_, encoded_F00F fun w hg hs => ?_, encoded_F00F fun w hg hs => ?_,
    encoded_F00F fun w hg hs => ?_,
    fun x y s => ⟨registersBecome_of_setReg rfl rfl, registersBecome_of_setReg rfl rfl,
      registersBecome_of_setReg rfl rfl, registersBecome_of_setReg rfl rfl⟩⟩
  all_goals simp [decodeWord, decodeGroup8, hg, hs, fieldX_eq_xOf, fieldY_eq_yOf]

/-- Settles O33: the carry is written after the sum. -/
theorem addWithCarryFlag : Obligations.AddWithCarryFlag := by
  refine ⟨encoded_F00F fun w hg hs => ?_, fun x y s => ?_⟩
  · simp [decodeWord, decodeGroup8, hg, hs, fieldX_eq_xOf, fieldY_eq_yOf]
  · exact registersBecome_of_resultThenFlag rfl (carryFlag_eq_ite ..) (add_eq_ofNat ..)

/-- Settles O34: the borrow complement is written after the difference; subn is sub with the operands exchanged. -/
theorem subtractWithBorrowComplement : Obligations.SubtractWithBorrowComplement := by
  refine ⟨encoded_F00F fun w hg hs => ?_, encoded_F00F fun w hg hs => ?_, fun x y s => ⟨?_, ?_⟩⟩
  · simp [decodeWord, decodeGroup8, hg, hs, fieldX_eq_xOf, fieldY_eq_yOf]
  · simp [decodeWord, decodeGroup8, hg, hs, fieldX_eq_xOf, fieldY_eq_yOf]
  · exact registersBecome_of_resultThenFlag rfl (noBorrowFlag_eq_ite ..) (sub_eq_ofNat ..)
  · exact registersBecome_of_resultThenFlag rfl (noBorrowFlag_eq_ite ..) (sub_eq_ofNat ..)

/-- Settles O35: the bit shifted out is written first, so with x = 15 it is what is shifted. -/
theorem shiftsWriteFlagFirst : Obligations.ShiftsWriteFlagFirst := by
  refine ⟨encoded_F00F fun w hg hs => ?_, encoded_F00F fun w hg hs => ?_, fun x s => ⟨?_, ?_⟩⟩
  · simp [decodeWord, decodeGroup8, hg, hs, fieldX_eq_xOf]
  · simp [decodeWord, decodeGroup8, hg, hs, fieldX_eq_xOf]
  · exact registersBecome_of_flagThenShift rfl (lowBitFlag_eq_ofNat _) (lowBitFlag_shiftRight_one _)
      (ushiftRight_one_eq_ofNat _)
  · exact registersBecome_of_flagThenShift rfl (highBitFlag_eq_ofNat _) (highBitFlag_shiftLeft_one _)
      (shiftLeft_one_eq_ofNat _)

/-- Settles O36: Vx is the byte drawn AND nn, and only the draw counter moves beside it. -/
theorem randomIsMaskedByNn : Obligations.RandomIsMaskedByNn := by
  refine ⟨encoded_F000 fun w hg => ?_, fun x nn s => ?_⟩
  · simp [decodeWord, hg, fieldX_eq_xOf, fieldNN_eq_nnOf]
  · have hreg (k : Reg) := s.reg_setReg x k (Config.rand8 s.draws &&& nn)
    refine ⟨Config.rand8 s.draws, (s.setReg x (Config.rand8 s.draws &&& nn)).v, s.draws + 1, ⟨_, rfl⟩, hreg,
      fun b hb => ?_⟩
    simp [hb]

/-- Settles O31: both write their result to Vx and no flag. -/
theorem immediateForms : Obligations.ImmediateForms := by
  refine ⟨encoded_F000 fun w hg => ?_, encoded_F000 fun w hg => ?_, fun x nn s => ⟨?_, ?_⟩⟩
  · simp [decodeWord, hg, fieldX_eq_xOf, fieldNN_eq_nnOf]
  · simp [decodeWord, hg, fieldX_eq_xOf, fieldNN_eq_nnOf]
  · exact registersBecome_of_setReg rfl rfl
  · exact registersBecome_of_setReg rfl (add_eq_ofNat ..)

end Sys2Proof

/-! # The index register and memory (43_index_memory.md)

A block that lies in memory passes the bounds check of R66, so each of the three block instructions then has one answer;
when it does not lie there, the lemma that says when the instruction halts applies. What remains is what a block write
leaves at every address, and the values as numbers. -/

namespace Sys2Proof.Machine

/-! ### Reads after a block write -/

namespace Memory

/-- A block write leaves every address outside the block as before (20_memory.md R69). -/
theorem read_writeBytes_of_outside {m : Memory} {a b : Nat} {bs : List Byte} (hb : b < a ∨ a + bs.length ≤ b) :
    read (writeBytes m a bs) b = read m b := by
  rw [read_writeBytes, dif_neg (by omega)]

@[simp] theorem length_bcdDigits (b : Byte) : (bcdDigits b).length = 3 := rfl

/-- The three digits of a byte stand at a, a + 1 and a + 2, and every other address is as before
(43_index_memory.md R193). -/
theorem toNat_read_writeBytes_bcdDigits (m : Memory) (a : Nat) (b : Byte) (c : Nat) :
    (read (writeBytes m a (bcdDigits b)) c).toNat =
      if c = a then b.toNat / 100
      else if c = a + 1 then b.toNat / 10 % 10
      else if c = a + 2 then b.toNat % 10
      else (read m c).toNat := by
  have hb := b.isLt
  have hdigit {k d : Nat} (hk : k < (bcdDigits b).length) (hd : (bcdDigits b)[k] = BitVec.ofNat 8 d) (hlt : d < 256) :
      (read (writeBytes m a (bcdDigits b)) (a + k)).toNat = d := by
    rw [read_writeBytes_add m a hk, hd, BitVec.toNat_ofNat, Nat.mod_eq_of_lt hlt]
  split_ifs with h₀ h₁ h₂
  · subst h₀
    exact hdigit (k := 0) (by simp) rfl (by omega)
  · subst h₁
    exact hdigit (by simp) rfl (by omega)
  · subst h₂
    exact hdigit (by simp) rfl (by omega)
  · rw [read_writeBytes_of_outside (by rw [length_bcdDigits]; omega)]

end Memory

/-! ### The values of I and the flag as numbers -/

/-- I after add-index, modulo 65536 (43_index_memory.md R191). -/
theorem toNat_add_wide (a : Word) (b : Byte) : (a + wide b).toNat = (a.toNat + b.toNat) % 65536 := by
  rw [BitVec.toNat_add, toNat_wide]

/-- Five times a byte fits 16 bits (43_index_memory.md R192). -/
theorem toNat_wide_mul_five (b : Byte) : (wide b * 5).toNat = b.toNat * 5 := by
  have := b.isLt
  have hfive : (5 : Word).toNat = 5 := rfl
  rw [BitVec.toNat_mul, toNat_wide, hfive]; omega

/-- I past a block of registers, modulo 65536 (43_index_memory.md R194, R195). -/
theorem toNat_add_ofNat_succ (a : Word) (k : Nat) : (a + BitVec.ofNat 16 (k + 1)).toNat = (a.toNat + k + 1) % 65536 := by
  rw [BitVec.toNat_add, BitVec.toNat_ofNat]; omega

theorem indexFlag_eq_ite (a : Word) : indexFlag a = if a.toNat > 0xFFF then 1 else 0 := by
  simp [indexFlag, flagByte]

/-! ### The block instructions when their block lies in memory -/

/-- A block with last byte k passes the bounds check when that byte is in memory (20_memory.md R66). -/
theorem inMemory_succ_of_le {base : Word} {k : Nat} (h : base.toNat + k ≤ 0xFFF) : inMemory base (k + 1) = true := by
  rw [inMemory_iff]; omega

section

variable {s : State} {x : Reg}

theorem exec_storeBcd_of_inMemory (h : inMemory s.idx 3 = true) :
    exec (.storeBcd x) s = .next (s.storeBytes s.dataAddr (bcdDigits (s.reg x))).advance :=
  if_pos h

theorem exec_storeRegs_of_inMemory (h : inMemory s.idx (x.val + 1) = true) : exec (.storeRegs x) s = .next
    ((s.storeBytes s.dataAddr (s.regsUpTo x)).setIdx (s.idx + BitVec.ofNat 16 (x.val + 1))).advance :=
  if_pos h

theorem exec_loadRegs_of_inMemory (h : inMemory s.idx (x.val + 1) = true) : exec (.loadRegs x) s = .next
    ((s.loadRegsFrom s.dataAddr x).setIdx (s.idx + BitVec.ofNat 16 (x.val + 1))).advance :=
  if_pos h

end

/-- A block store leaves every address outside I to I + x as before (43_index_memory.md R194). -/
theorem State.read_storeBytes_regsUpTo_of_outside (s : State) {a b : Nat} {x : Reg} (hb : b < a ∨ a + x.val < b) :
    Memory.read (s.storeBytes a (s.regsUpTo x)).mem b = Memory.read s.mem b :=
  Memory.read_writeBytes_of_outside (by rw [State.length_regsUpTo]; omega)

/-- A block load from where V[0] to V[x] of s were stored gives them back and leaves the registers above, memory, and I
past the block (95_test_vectors.md S5). -/
theorem exec_loadRegs_of_stored {s t : State} {x : Reg} (hin : inMemory s.idx (x.val + 1) = true)
    (hidx : t.idx = s.idx) (hmem : t.mem = (s.storeBytes s.dataAddr (s.regsUpTo x)).mem) :
    ∃ u, exec (.loadRegs x) t = .next u ∧ (∀ k, u.reg k = if k ≤ x then s.reg k else t.reg k) ∧ u.mem = t.mem ∧
      u.idx = s.idx + BitVec.ofNat 16 (x.val + 1) := by
  have haddr : t.dataAddr = s.dataAddr := congrArg BitVec.toNat hidx
  rw [← hidx] at hin
  refine ⟨_, exec_loadRegs_of_inMemory hin, fun k => ?_, by simp, by simp [hidx]⟩
  rw [State.reg_advance, State.reg_setIdx, State.reg_loadRegsFrom, haddr, hmem]
  split_ifs with hk
  · exact s.read_storeBytes_regsUpTo s.dataAddr hk
  · rfl

end Sys2Proof.Machine

namespace Sys2Proof.Claims

open Sys2Proof.Machine

/-- load-regs whose block lies in memory completes, and writes the registers and I only (43_index_memory.md R195). The
record updates are unfolded by simp: left to the unifier, it compares the vectors of registers entry by entry. -/
theorem completes_loadRegs {s : State} {x : Reg} (h : inMemory s.idx (x.val + 1) = true) : Completes (.loadRegs x) s
    { s with v := (s.loadRegsFrom s.dataAddr x).v, idx := s.idx + BitVec.ofNat 16 (x.val + 1), pc := s.pc + 2 } := by
  refine ⟨some .executed, (exec_loadRegs_of_inMemory h).trans ?_⟩
  simp only [State.advance, State.complete, State.setIdx, State.loadRegsFrom]

end Sys2Proof.Claims

namespace Sys2Proof

open Sys2Proof.Machine Sys2Proof.Claims

/-- Settles O39: the flag is written last, from the I just written, so with x = 15 it stands over V[15]. -/
theorem addIndexSetsFlag : Obligations.AddIndexSetsFlag := by
  refine ⟨encoded_F0FF fun w hg hs => by simp [decodeWord, decodeGroupF, hg, hs, fieldX_eq_xOf], fun x s => ?_⟩
  refine ⟨_, _, toNat_add_wide s.idx (s.reg x), fun k => ?_, _, rfl⟩
  rw [← indexFlag_eq_ite]
  exact s.reg_setFlag k _

/-- Settles O40: the digits are a block of three bytes. -/
theorem storeBcdWritesDigits : Obligations.StoreBcdWritesDigits := by
  refine ⟨encoded_F0FF fun w hg hs => by simp [decodeWord, decodeGroupF, hg, hs, fieldX_eq_xOf],
    fun x s => ⟨fun hout => ?_, fun hin => ?_⟩⟩
  · exact halts_of_exec ((exec_storeBcd_halts_iff s x _).mpr ⟨rfl, hout⟩)
  · exact ⟨_, Memory.toNat_read_writeBytes_bcdDigits s.mem s.idx.toNat (s.reg x),
      completes_of_exec (exec_storeBcd_of_inMemory (inMemory_succ_of_le hin))⟩

/-- Settles O41: the registers are a block of x + 1 bytes. -/
theorem storeRegsWritesBlock : Obligations.StoreRegsWritesBlock := by
  refine ⟨encoded_F0FF fun w hg hs => by simp [decodeWord, decodeGroupF, hg, hs, fieldX_eq_xOf],
    fun x s => ⟨fun hout => ?_, fun hin => ?_⟩⟩
  · exact halts_of_exec ((exec_storeRegs_halts_iff s x _).mpr ⟨rfl, hout⟩)
  · exact ⟨_, _, toNat_add_ofNat_succ s.idx x.val, fun k hk => s.read_storeBytes_regsUpTo s.dataAddr hk,
      fun a ha => s.read_storeBytes_regsUpTo_of_outside ha,
      completes_of_exec (exec_storeRegs_of_inMemory (inMemory_succ_of_le hin))⟩

/-- Settles O42: the block is read into the registers up to x and no other. -/
theorem loadRegsReadsBlock : Obligations.LoadRegsReadsBlock := by
  refine ⟨encoded_F0FF fun w hg hs => by simp [decodeWord, decodeGroupF, hg, hs, fieldX_eq_xOf],
    fun x s => ⟨fun hout => ?_, fun hin => ?_⟩⟩
  · exact halts_of_exec ((exec_loadRegs_halts_iff s x _).mpr ⟨rfl, hout⟩)
  · exact ⟨_, _, toNat_add_ofNat_succ s.idx x.val, s.reg_loadRegsFrom s.dataAddr x,
      completes_loadRegs (inMemory_succ_of_le hin)⟩

/-- Settles O43: the block that passed the store's bounds check passes the load's, which finds the bytes just stored. -/
theorem storeThenLoadRegsRoundTrips : Obligations.StoreThenLoadRegsRoundTrips := by
  intro x s t between h hrun
  obtain ⟨hin, rfl⟩ | ⟨-, rfl⟩ := exec_storeRegs_cases h
  · exact exec_loadRegs_of_stored hin rfl rfl
  · exact absurd (State.raiseHalt_ctl ..) hrun

/-- Settles O37: nnn is the new I as it stands. -/
theorem setIndexLoadsLiteral : Obligations.SetIndexLoadsLiteral :=
  ⟨encoded_F000 fun w hg => by simp [decodeWord, hg, fieldNNN_eq_nnnOf],
    fun nnn _ => ⟨addrOf nnn, toNat_addrOf nnn, _, rfl⟩⟩

/-- Settles O38: the product is at most 1275, so the 16-bit product is exact. -/
theorem indexToSpriteTimesFive : Obligations.IndexToSpriteTimesFive :=
  ⟨encoded_F0FF fun w hg hs => by simp [decodeWord, decodeGroupF, hg, hs, fieldX_eq_xOf],
    fun x s => ⟨_, toNat_wide_mul_five (s.reg x), _, rfl⟩⟩

end Sys2Proof

/-! # Graphics (44_graphics.md)

No cell stands twice in the list of cells that a draw toggles, so the draw inverts exactly its members and its hit says
whether one of them was on; the members are the cells the sprite covers. Drawing twice inverts them twice. The list
depends on DRAW_EDGE only by Place, which is the same under both values inside the grid. -/

namespace Sys2Proof.Machine

/-! ### Where pixels land (44_graphics.md R212) -/

theorem place_clip_of_lt {px py : Nat} (hx : px < 64) (hy : py < 32) :
    place .clip px py = some (⟨px, hx⟩, ⟨py, hy⟩) :=
  dif_pos ⟨hx, hy⟩

theorem place_clip_of_not_lt {px py : Nat} (h : ¬ (px < 64 ∧ py < 32)) : place .clip px py = none :=
  dif_neg h

/-- Inside the grid Place does not depend on DRAW_EDGE. -/
theorem place_eq_place_of_lt (edge edge' : DrawEdge) {px py : Nat} (hx : px < 64) (hy : py < 32) :
    place edge px py = place edge' px py := by
  have hinside (e : DrawEdge) : place e px py = some (⟨px, hx⟩, ⟨py, hy⟩) := by
    rw [place_eq_some]
    cases e with
    | wrap => exact ⟨(Nat.mod_eq_of_lt hx).symm, (Nat.mod_eq_of_lt hy).symm⟩
    | clip => exact ⟨rfl, rfl⟩
  rw [hinside edge, hinside edge']

/-- A sprite row wholly inside the grid covers the same cells under every DRAW_EDGE. -/
theorem rowCells_eq_of_inside (edge edge' : DrawEdge) {px py : Nat} (b : Byte) (hx : px ≤ 56) (hy : py < 32) :
    rowCells edge px py b = rowCells edge' px py b := by
  refine List.flatMap_congr fun c hc => ?_
  have hc : c < 8 := List.mem_range.mp hc
  rw [place_eq_place_of_lt edge edge' (by omega) hy]

/-- A sprite wholly inside the grid covers the same cells under every DRAW_EDGE. -/
theorem spriteCells_eq_of_inside (edge edge' : DrawEdge) {px py : Nat} {bs : List Byte} (hx : px ≤ 56)
    (hy : py + bs.length ≤ 32) : spriteCells edge px py bs = spriteCells edge' px py bs := by
  induction bs generalizing py with
  | nil => rfl
  | cons b bs ih =>
    rw [List.length_cons] at hy
    rw [spriteCells, spriteCells, rowCells_eq_of_inside edge edge' b hx (by omega), ih (by omega)]

/-! ### Toggling cells that are all different -/

section

variable {cells : List Cell}

/-- Where no cell stands twice, a draw inverts exactly the cells of the list (44_graphics.md R211). -/
theorem pixel_plotAll_of_nodup (fb : FrameBuffer) (h : cells.Nodup) (cell : Cell) :
    pixel (plotAll fb cells).1 cell = (pixel fb cell ^^ decide (cell ∈ cells)) := by
  rw [pixel_plotAll, h.count]
  by_cases hmem : cell ∈ cells <;> simp [hmem]

/-- The hit says whether a cell of the list was on. -/
theorem hit_plotAll_iff (fb : FrameBuffer) (h : cells.Nodup) :
    (plotAll fb cells).2 = true ↔ ∃ cell ∈ cells, pixel fb cell = true := by
  rw [hit_plotAll fb cells h, List.any_eq_true]

/-- The same toggles once more restore the framebuffer (44_graphics.md R213). -/
theorem plotAll_plotAll (fb : FrameBuffer) (h : cells.Nodup) : (plotAll (plotAll fb cells).1 cells).1 = fb :=
  frameBuffer_ext fun cell => by
    rw [pixel_plotAll_of_nodup _ h, pixel_plotAll_of_nodup _ h, Bool.xor_assoc, Bool.xor_self, Bool.xor_false]

/-- The second time, the hit says whether a cell of the list was off before the first (44_graphics.md R213). -/
theorem hit_plotAll_plotAll_iff (fb : FrameBuffer) (h : cells.Nodup) :
    (plotAll (plotAll fb cells).1 cells).2 = true ↔ ∃ cell ∈ cells, pixel fb cell = false := by
  rw [hit_plotAll_iff _ h]
  refine exists_congr fun cell => and_congr_right fun hmem => ?_
  simp [pixel_plotAll_of_nodup fb h, hmem]

end

/-! ### The flag -/

theorem flagByte_eq_one_iff {b : Bool} : flagByte b = 1 ↔ b = true := by
  cases b <;> decide

theorem flagByte_eq_zero_iff {b : Bool} : flagByte b = 0 ↔ ¬ b = true := by
  cases b <;> decide

/-! ### The draw -/

/-- The cells that draw Vx,Vy,n toggles (44_graphics.md R211). -/
def State.drawCells (s : State) (x y : Reg) (n : BitVec 4) : List Cell :=
  spriteCells s.params.drawEdge (s.reg x).toNat (s.reg y).toNat (s.spriteBytes n)

/-- The state after draw Vx,Vy,n with its sprite in memory, but for the end of the instruction. -/
def State.plotSprite (s : State) (x y : Reg) (n : BitVec 4) : State :=
  (s.show (plotAll s.fb (s.drawCells x y n)).1).setFlag (flagByte (plotAll s.fb (s.drawCells x y n)).2)

section

variable {s t : State} {x y : Reg} {n : BitVec 4}

theorem exec_draw_of_inMemory (h : inMemory s.idx n.toNat = true) :
    exec (.draw x y n) s = .next (s.plotSprite x y n).advance :=
  if_pos h

/-- draw: the sprite is plotted, or it does not lie in memory (44_graphics.md R211). -/
theorem exec_draw_plotSprite_cases (h : exec (.draw x y n) s = .next t) :
    (inMemory s.idx n.toNat = true ∧ t = (s.plotSprite x y n).advance) ∨
    (inMemory s.idx n.toNat = false ∧ t = s.raiseHalt .memoryBounds) :=
  next_of_ite h

@[simp] theorem State.plotSprite_fb : (s.plotSprite x y n).fb = (plotAll s.fb (s.drawCells x y n)).1 := rfl

/-- The registers after a draw: V[15] is the hit, every other is as before (44_graphics.md R211). -/
theorem State.reg_plotSprite (k : Reg) : (s.plotSprite x y n).reg k =
    if k = flagReg then flagByte (plotAll s.fb (s.drawCells x y n)).2 else s.reg k :=
  State.reg_setFlag ..

/-- V[15] after a draw is the hit (44_graphics.md R211). -/
theorem State.flag_plotSprite : (s.plotSprite x y n).v[15] = flagByte (plotAll s.fb (s.drawCells x y n)).2 :=
  (State.reg_plotSprite flagReg).trans (if_pos rfl)

@[simp] theorem State.length_spriteBytes : (s.spriteBytes n).length = n.toNat :=
  Memory.length_readBytes ..

/-- A sprite has at most 15 rows, so no two of its pixels fall on one cell (44_graphics.md R211). -/
theorem State.nodup_drawCells : (s.drawCells x y n).Nodup := by
  have := n.isLt
  exact nodup_spriteCells _ _ _ _ (by rw [State.length_spriteBytes]; omega)

theorem State.drawCells_advance : s.advance.drawCells x y n = s.drawCells x y n := rfl

/-- After a draw that leaves Vx and Vy as they are, the same draw toggles the same cells (44_graphics.md R213). -/
theorem State.drawCells_plotSprite (hx : x ≠ flagReg) (hy : y ≠ flagReg) :
    (s.plotSprite x y n).drawCells x y n = s.drawCells x y n := by
  rw [State.drawCells, State.reg_plotSprite, State.reg_plotSprite, if_neg hx, if_neg hy]
  rfl

/-- A sprite wholly inside the grid covers the same cells under any parameters (44_graphics.md R212). -/
theorem State.drawCells_withParams (p : Params) (hx : (s.reg x).toNat ≤ 56) (hy : (s.reg y).toNat + n.toNat ≤ 32) :
    { s with params := p }.drawCells x y n = s.drawCells x y n :=
  spriteCells_eq_of_inside p.drawEdge s.params.drawEdge hx (by rwa [State.length_spriteBytes])

/-- A draw wholly inside the grid does the same under any parameters (44_graphics.md R212). -/
theorem exec_draw_withParams (p : Params) (hx : (s.reg x).toNat ≤ 56) (hy : (s.reg y).toNat + n.toNat ≤ 32)
    (h : exec (.draw x y n) s = .next t) :
    exec (.draw x y n) { s with params := p } = .next { t with params := p } := by
  obtain ⟨hin, rfl⟩ | ⟨hout, rfl⟩ := exec_draw_plotSprite_cases h
  · rw [exec_draw_of_inMemory (s := { s with params := p }) hin, State.plotSprite, State.drawCells_withParams p hx hy]
    rfl
  · refine (exec_draw_halts_iff { s with params := p } x _ y n).mpr ⟨rfl, ?_⟩
    exact (inMemory_eq_false_iff ..).mp hout

end

end Sys2Proof.Machine

namespace Sys2Proof.Claims

open Sys2Proof.Machine

section

variable {s : State} {x y : Reg} {n : BitVec 4}

theorem fieldN_eq_nOf (w : Word) : fieldN w = nOf w :=
  BitVec.eq_of_toNat_eq (toNat_fieldN w)

theorem spriteInMemory_iff_inMemory : SpriteInMemory s n ↔ inMemory s.idx n.toNat = true := by
  rw [inMemory_iff, SpriteInMemory]; omega

/-- The cells a draw toggles are those its sprite covers (44_graphics.md R211, R212). -/
theorem mem_drawCells {cell : Cell} : cell ∈ s.drawCells x y n ↔ SpriteCovers s x y n cell := by
  rw [State.drawCells, mem_spriteCells]
  refine exists_congr fun r => exists_congr fun c => ?_
  simp only [place_eq_some, State.spriteBytes, Memory.length_readBytes, Memory.getElem_readBytes, exists_prop]
  rfl

/-- The framebuffer after a draw is the old one inverted on the cells the sprite covers (44_graphics.md R211). -/
theorem pixel_plotSprite_iff (cell : Cell) : pixel (s.plotSprite x y n).fb cell = true ↔
    ¬ (pixel s.fb cell = true ↔ SpriteCovers s x y n cell) := by
  rw [State.plotSprite_fb, pixel_plotAll_of_nodup _ State.nodup_drawCells, ← mem_drawCells]
  by_cases hmem : cell ∈ s.drawCells x y n <;> simp [hmem]

theorem hit_drawCells_iff : (plotAll s.fb (s.drawCells x y n)).2 = true ↔
    ∃ cell, SpriteCovers s x y n cell ∧ pixel s.fb cell = true := by
  simp only [hit_plotAll_iff _ State.nodup_drawCells, mem_drawCells]

end

end Sys2Proof.Claims

namespace Sys2Proof

open Sys2Proof.Machine Sys2Proof.Claims

/-- Settles O46: the cells toggled are pairwise different, and are those the sprite covers. -/
theorem drawTogglesCoveredCells : Obligations.DrawTogglesCoveredCells := by
  refine ⟨encoded_F000 fun w hg => by simp [decodeWord, hg, fieldX_eq_xOf, fieldY_eq_yOf, fieldN_eq_nOf],
    fun x y n s => ⟨fun hout => ?_, fun hin => ?_⟩⟩
  · refine halts_of_exec ((exec_draw_halts_iff s x _ y n).mpr ⟨rfl, ?_⟩)
    rwa [ge_iff_le, ← inMemory_eq_false_iff, ← Bool.not_eq_true, ← spriteInMemory_iff_inMemory]
  · exact ⟨_, (s.plotSprite x y n).v, pixel_plotSprite_iff,
      fun hhit => State.flag_plotSprite.trans (flagByte_eq_one_iff.mpr (hit_drawCells_iff.mpr hhit)),
      fun hmiss => State.flag_plotSprite.trans (flagByte_eq_zero_iff.mpr (mt hit_drawCells_iff.mp hmiss)),
      fun k hk => (State.reg_plotSprite k).trans (if_neg hk),
      completes_of_exec (exec_draw_of_inMemory (spriteInMemory_iff_inMemory.mp hin))⟩

/-- Settles O47: inside the grid Place, and so the list of cells, is the same under both values of DRAW_EDGE. -/
theorem drawEdgePlacesPixels : Obligations.DrawEdgePlacesPixels := by
  refine ⟨fun px py => ⟨_, rfl, rfl, rfl⟩, fun px py => ?_, fun x y n s p q hx hy t u ht hu => ?_⟩
  · split_ifs with hinside
    · exact ⟨_, place_clip_of_lt (by omega) (by omega), rfl, rfl⟩
    · exact place_clip_of_not_lt (by omega)
  · have hq := exec_draw_withParams (s := { s with params := p }) q hx hy ht
    exact Host.Outcome.next.inj (hu.symm.trans hq)

/-- Settles O48: the second draw toggles the same cells, since x and y are not the flag. -/
theorem drawingTwiceRestores : Obligations.DrawingTwiceRestores := by
  intro x y n s t hx hy h hrun
  obtain ⟨hin, rfl⟩ | ⟨-, rfl⟩ := exec_draw_plotSprite_cases h
  · have hcells : (s.plotSprite x y n).advance.drawCells x y n = s.drawCells x y n := by
      rw [State.drawCells_advance, State.drawCells_plotSprite hx hy]
    refine ⟨_, exec_draw_of_inMemory hin, ?_, ?_⟩
    · rw [State.advance_fb, State.plotSprite_fb, hcells]
      exact plotAll_plotAll s.fb State.nodup_drawCells
    · rw [State.advance_v, State.flag_plotSprite, flagByte_eq_one_iff, hcells]
      simp only [← mem_drawCells]
      exact hit_plotAll_plotAll_iff s.fb State.nodup_drawCells
  · exact absurd (State.raiseHalt_ctl ..) hrun

/-- Settles O45: every cell of the blank framebuffer is 0. -/
theorem clearScreenBlanks : Obligations.ClearScreenBlanks :=
  ⟨encoded_F0FF fun w hg hs => by simp [decodeWord, decodeGroup0, hg, hs],
    fun _ => ⟨blank, pixel_blank, _, rfl⟩⟩

end Sys2Proof

/-! # Timers and keys (45_timers_input.md)

The three timer moves are single writes. A key skip whose Vx names a key skips by that key's state; when Vx names none,
the lemma that says when the instruction halts applies. wait-key picks from the list of the keys down, so what is known
of a pick from a sorted list is known of the key taken. -/

namespace Sys2Proof.Machine

/-! ### The key skips when Vx names a key (45_timers_input.md R233, R234) -/

/-- A byte names the key whose index it is (D11: no masking). -/
theorem keyOf_eq_some_iff {b : Byte} {k : Key} : keyOf b = some k ↔ b.toNat = k.val := by
  simp only [keyOf, Option.dite_none_right_eq_some, Option.some.injEq, Fin.ext_iff]
  exact ⟨fun ⟨_, h⟩ => h, fun h => ⟨h ▸ k.isLt, h⟩⟩

section

variable {s : State} {x : Reg} {k : Key}

theorem exec_skipKeyPressed_of_names (hk : (s.reg x).toNat = k.val) :
    exec (.skipKeyPressed x) s = .next (s.skipIf s.key[k]) := by
  simp [exec, execSkipKeyPressed, keyOf_eq_some_iff.mpr hk]

theorem exec_skipKeyNotPressed_of_names (hk : (s.reg x).toNat = k.val) :
    exec (.skipKeyNotPressed x) s = .next (s.skipIf (!s.key[k])) := by
  simp [exec, execSkipKeyNotPressed, keyOf_eq_some_iff.mpr hk]

end

/-! ### The key wait-key takes (45_timers_input.md R235) -/

section

variable {key : Vector Bool 16} {k j : Key} {ks : List Key}

theorem key_pickKey (hkeys : pressedKeys key = k :: ks) (pick : WaitKeyPick) (draw : Nat) :
    key[pickKey pick draw k ks] = true := by
  rw [← mem_pressedKeys, hkeys]
  exact pickKey_mem pick draw k ks

theorem pickKey_lowest_le_of_pressed (hkeys : pressedKeys key = k :: ks) (draw : Nat) (hj : key[j] = true) :
    pickKey .lowest draw k ks ≤ j :=
  pickKey_lowest_le draw (hkeys ▸ pressedKeys_sorted key) (hkeys ▸ (mem_pressedKeys key j).mpr hj)

theorem le_pickKey_highest_of_pressed (hkeys : pressedKeys key = k :: ks) (draw : Nat) (hj : key[j] = true) :
    j ≤ pickKey .highest draw k ks :=
  le_pickKey_highest draw (hkeys ▸ pressedKeys_sorted key) (hkeys ▸ (mem_pressedKeys key j).mpr hj)

end

section

variable {s : State} (x : Reg)

theorem exec_waitKey_of_none_pressed (hkeys : pressedKeys s.key = []) : exec (.waitKey x) s = .next s.block := by
  simp [exec, execWaitKey, hkeys]

theorem exec_waitKey_of_pressed {k : Key} {ks : List Key} (hkeys : pressedKeys s.key = k :: ks) :
    exec (.waitKey x) s = .next ((s.drawn (if s.params.waitKeyPick = .any then 1 else 0)).setReg x
      (BitVec.ofNat 8 (pickKey s.params.waitKeyPick s.draws k ks).val)).advance := by
  simp [exec, execWaitKey, hkeys]

end

end Sys2Proof.Machine

namespace Sys2Proof

open Sys2Proof.Machine Sys2Proof.Claims

/-- Settles O50: Vx above 15 names no key, and otherwise names the key of its own number. -/
theorem keySkipsTestKeyState : Obligations.KeySkipsTestKeyState := by
  refine ⟨encoded_F0FF fun w hg hs => ?_, encoded_F0FF fun w hg hs => ?_,
    fun x s => ⟨fun hout => ⟨?_, ?_⟩, fun k hk => ⟨?_, ?_⟩⟩⟩
  · simp [decodeWord, decodeGroupE, hg, hs, fieldX_eq_xOf]
  · simp [decodeWord, decodeGroupE, hg, hs, fieldX_eq_xOf]
  · exact halts_of_exec ((exec_skipKeyPressed_halts_iff s x _).mpr ⟨rfl, hout⟩)
  · exact halts_of_exec ((exec_skipKeyNotPressed_halts_iff s x _).mpr ⟨rfl, hout⟩)
  · exact skipsIf_of_exec (exec_skipKeyPressed_of_names hk) Iff.rfl
  · exact skipsIf_of_exec (exec_skipKeyNotPressed_of_names hk) (Bool.not_eq_true' _).to_iff

/-- Settles O51: wait-key blocks on the empty list of keys down, and otherwise takes the member it picks. -/
theorem waitKeyTakesPressedKey : Obligations.WaitKeyTakesPressedKey := by
  refine ⟨encoded_F0FF fun w hg hs => by simp [decodeWord, decodeGroupF, hg, hs, fieldX_eq_xOf],
    fun x s => ⟨fun hnone => ?_, fun ⟨j, hj⟩ => ?_⟩⟩
  · exact exec_waitKey_of_none_pressed x (pressedKeys_eq_nil_iff.mpr hnone)
  · obtain ⟨k, ks, hkeys⟩ := List.exists_cons_of_ne_nil (List.ne_nil_of_mem ((mem_pressedKeys s.key j).mpr hj))
    refine ⟨pickKey s.params.waitKeyPick s.draws k ks, _, _, key_pickKey hkeys _ _, fun hlow i hi => ?_,
      fun hhigh i hi => ?_, fun hany => ?_, fun i => s.reg_setReg x i _, exec_waitKey_of_pressed x hkeys⟩
    · rw [hlow]
      exact pickKey_lowest_le_of_pressed hkeys s.draws hi
    · rw [hhigh]
      exact le_pickKey_highest_of_pressed hkeys s.draws hi
    · rw [State.setReg_draws, State.drawn_draws, if_neg hany, Nat.add_zero]

/-- Settles O49: DT is read, written from Vx, and ST written from Vx, each as it stands. -/
theorem timerMoves : Obligations.TimerMoves := by
  refine ⟨encoded_F0FF fun w hg hs => ?_, encoded_F0FF fun w hg hs => ?_, encoded_F0FF fun w hg hs => ?_,
    fun x s => ⟨registersBecome_of_setReg rfl rfl, completes_of_exec (t := s.setDt (s.reg x)) rfl,
      completes_of_exec (t := s.setSt (s.reg x)) rfl⟩⟩
  all_goals simp [decodeWord, decodeGroupF, hg, hs, fieldX_eq_xOf]

end Sys2Proof

/-! # Unknown words, halted machines, and the events beside the step (60_exceptions.md)

While a machine is HALTED no event but reset touches anything but memory, the timers, the keys, RD and the report.
`StaysHalted` says so of two states; every such event relates them so, and the relation is transitive, hence it holds
along every sequence of events. -/

namespace Sys2Proof.Machine

/-! ### An unknown word (60_exceptions.md R254) -/

/-- A running machine whose PC is fetchable answers to an unknown word by UNKNOWN_POLICY. -/
theorem step_of_decodeWord_error {s : State} {e : DecodeError} (hrun : s.ctl ≠ .halted) (hpc : s.pc.toNat ≤ 0xFFE)
    (hdec : decodeWord s.fetchWord = .error e) : step s = .next (s.unknown s.fetchWord) := by
  obtain ⟨hc, -⟩ | ⟨-, hlt, -⟩ | ⟨-, -, -, h⟩ | ⟨-, -, i, hi, -⟩ := fetch_cases s
  · exact absurd hc hrun
  · exact absurd hpc (by omega)
  · simp only [step, h]
  · simp [hdec] at hi

/-! ### The load (70_reset_and_hazards.md R296) -/

/-- A load writes memory at most. -/
theorem State.load_writes_mem (s : State) (bytes : List Byte) (origin : Nat) :
    ∃ m, (s.load bytes origin).2 = { s with mem := m } := by
  obtain ⟨-, h⟩ | ⟨-, h⟩ := load_cases s bytes origin
  · exact ⟨_, congrArg Prod.snd h⟩
  · exact ⟨s.mem, congrArg Prod.snd h⟩

/-! ### While HALTED (60_exceptions.md R251, R257) -/

/-- The machine t is HALTED, and what only a step of a running machine or a reset can change is in t as it is in s. -/
structure StaysHalted (s t : State) : Prop where
  ctl : t.ctl = .halted
  cause : t.cause = s.cause
  v : t.v = s.v
  pc : t.pc = s.pc
  idx : t.idx = s.idx
  stack : t.stack = s.stack
  sp : t.sp = s.sp
  fb : t.fb = s.fb

theorem StaysHalted.refl {s : State} (hhalted : s.ctl = .halted) : StaysHalted s s :=
  ⟨hhalted, rfl, rfl, rfl, rfl, rfl, rfl, rfl⟩

theorem StaysHalted.trans {s t u : State} (hst : StaysHalted s t) (htu : StaysHalted t u) : StaysHalted s u where
  ctl := htu.ctl
  cause := htu.cause.trans hst.cause
  v := htu.v.trans hst.v
  pc := htu.pc.trans hst.pc
  idx := htu.idx.trans hst.idx
  stack := htu.stack.trans hst.stack
  sp := htu.sp.trans hst.sp
  fb := htu.fb.trans hst.fb

/-- Every event but reset leaves a halted machine halted. -/
theorem applyEvent_staysHalted {e : Event} {s : State} (hhalted : s.ctl = .halted) (he : e ≠ .reset) :
    ∃ t, applyEvent e s = .next t ∧ StaysHalted s t := by
  cases e with
  | reset => exact absurd rfl he
  | load bytes origin =>
    obtain ⟨m, h⟩ := s.load_writes_mem bytes origin
    exact ⟨_, congrArg Host.Outcome.next h, hhalted, rfl, rfl, rfl, rfl, rfl, rfl, rfl⟩
  | step => exact ⟨_, haltedStepChangesNothing s hhalted, hhalted, rfl, rfl, rfl, rfl, rfl, rfl, rfl⟩
  | _ => exact ⟨_, rfl, hhalted, rfl, rfl, rfl, rfl, rfl, rfl, rfl⟩

/-- Every sequence of events without a reset leaves a halted machine halted. -/
theorem applyEvents_staysHalted {es : List Event} {s : State} (hhalted : s.ctl = .halted) (hes : .reset ∉ es) :
    ∃ t, applyEvents es s = .next t ∧ StaysHalted s t := by
  induction es generalizing s with
  | nil => exact ⟨s, rfl, .refl hhalted⟩
  | cons e es ih =>
    obtain ⟨he, hes⟩ := not_or.mp (mt List.mem_cons.mpr hes)
    obtain ⟨t, h, hst⟩ := applyEvent_staysHalted hhalted (Ne.symm he)
    obtain ⟨u, hu, htu⟩ := ih hst.ctl hes
    exact ⟨u, (applyEvents_cons h es).trans hu, hst.trans htu⟩

/-! ### The timers, the keys and RD (60_exceptions.md R262, R265, R269) -/

/-- One countdown goes down by one and stops at 0. -/
theorem toNat_countDown (b : Byte) : (countDown b).toNat = b.toNat - 1 := by
  by_cases hb : b = 0
  · simp [countDown, hb]
  · have hpos : b.toNat ≠ 0 := fun h => hb (BitVec.eq_of_toNat_eq h)
    rw [countDown, if_neg hb]
    bv_omega

theorem State.key_keySet (s : State) (k : Key) (b : Bool) (j : Key) :
    (s.keySet k b).key[j] = if j = k then b else s.key[j] := by
  simp [State.keySet, Vector.getElem_set, Fin.ext_iff, eq_comm]

/-- No event but redraw_ack clears RD. -/
theorem applyEvent_keeps_rd_set {e : Event} {s t : State} (h : applyEvent e s = .next t) (he : e ≠ .redrawAck)
    (hrd : s.rd = true) : t.rd = true := by
  cases e with
  | reset => cases h; rfl
  | load bytes origin =>
    cases h
    obtain ⟨m, hload⟩ := s.load_writes_mem bytes origin
    rw [hload]; exact hrd
  | step =>
    obtain ⟨-, -, hkept, -⟩ := stepLeavesTimersKeysRedraw s t h
    exact hkept hrd
  | redrawAck => exact absurd rfl he
  | _ => cases h; exact hrd

end Sys2Proof.Machine

namespace Sys2Proof

open Sys2Proof.Machine

/-- Settles O57: a sequence of events without a reset answers a state in which the machine stays halted. -/
theorem onlyResetLeavesHalted : Obligations.OnlyResetLeavesHalted := by
  intro es s t hhalted hes h
  obtain ⟨t', h', hstays⟩ := applyEvents_staysHalted hhalted hes
  obtain rfl : t = t' := by simpa [h] using h'
  exact ⟨hstays.ctl, hstays.cause, hstays.v, hstays.pc, hstays.idx, hstays.stack, hstays.sp, hstays.fb⟩

/-- Settles O10: the word with the value of the two bytes at PC is the word fetched, and UNKNOWN_POLICY says what
follows. -/
theorem unknownInstructionByPolicy : Obligations.UnknownInstructionByPolicy := by
  intro s w e hrun hpc hw hdec
  obtain rfl := State.fetchWord_eq_of_toNat hw
  rw [step_of_decodeWord_error hrun hpc hdec]
  obtain ⟨hp, h⟩ | ⟨hp, h⟩ := unknown_cases s s.fetchWord
  · rw [h, hp]
  · rw [h, hp]; rfl

/-- Settles O52: each timer makes one countdown. -/
theorem tickCountsDownToZero : Obligations.TickCountsDownToZero :=
  fun s => ⟨countDown s.dt, countDown s.st, toNat_countDown s.dt, toNat_countDown s.st, rfl⟩

/-- Settles O53: key_set and redraw_ack are single writes, and every other event keeps RD once it is set. -/
theorem keySetAndRedrawAck : Obligations.KeySetAndRedrawAck := by
  refine fun s k b => ⟨⟨_, s.key_keySet k b, rfl⟩, rfl, fun e t h hset hcleared => ?_⟩
  by_contra he
  simp [applyEvent_keeps_rd_set h he hset] at hcleared

end Sys2Proof

/-! # The program load (70_reset_and_hazards.md R296 to R298)

`load_cases` says the two things a load can do. The two rules below say which of them it does, by the end of the image. -/

namespace Sys2Proof.Machine

/-- An image that ends inside memory is written whole. -/
theorem State.load_of_le (s : State) {bytes : List Byte} {origin : Nat} (hfit : origin + bytes.length ≤ 4096) :
    s.load bytes origin = (.loaded, s.storeBytes origin bytes) := by
  obtain ⟨-, h⟩ | ⟨hlarge, -⟩ := load_cases s bytes origin
  · exact h
  · exact absurd hfit hlarge.not_ge

/-- An image that ends beyond memory is refused, and nothing changes. -/
theorem State.load_of_lt (s : State) {bytes : List Byte} {origin : Nat} (hlarge : 4096 < origin + bytes.length) :
    s.load bytes origin = (.imageTooLarge, s) := by
  obtain ⟨hfit, -⟩ | ⟨-, h⟩ := load_cases s bytes origin
  · exact absurd hfit hlarge.not_ge
  · exact h

/-- The last byte of a block just written stands at the last address of the block. -/
theorem Memory.getLast?_eq_some_read_writeBytes (m : Memory) {a b : Nat} {bs : List Byte}
    (hb : b + 1 = a + bs.length) (hne : bs ≠ []) : bs.getLast? = some (read (writeBytes m a bs) b) := by
  have hpos : 0 < bs.length := List.length_pos_iff.mpr hne
  obtain rfl : b = a + (bs.length - 1) := by omega
  rw [read_writeBytes_add m a (by omega), List.getLast?_eq_getElem?, List.getElem?_eq_getElem]

end Sys2Proof.Machine

namespace Sys2Proof

open Sys2Proof.Machine

/-- Settles O54: the precondition of load says that the image ends inside memory (from an origin above 4096 none does,
the empty one included), and the image is then a block just written. -/
theorem loadIsAllOrNothing : Obligations.LoadIsAllOrNothing := by
  refine fun bytes origin s => ⟨fun hlarge => s.load_of_lt (by omega), fun ⟨horigin, hlen⟩ => ?_⟩
  exact ⟨Memory.writeBytes s.mem origin bytes, fun k hk => Memory.read_writeBytes_add s.mem origin hk,
    fun a ha => Memory.read_writeBytes_of_outside ha, s.load_of_le (by omega)⟩

/-- Settles O55: from 0x200 an image of 3584 bytes ends at the end of memory, and one of 3585 bytes beyond it. -/
theorem largestImageIs3584Bytes : Obligations.LargestImageIs3584Bytes := by
  refine ⟨rfl, fun bytes s => ⟨fun hlen => ?_, fun hlen => s.load_of_lt (by rw [defaultOrigin]; omega)⟩⟩
  rw [s.load_of_le (by rw [defaultOrigin]; omega)]
  have hne : bytes ≠ [] := List.ne_nil_of_length_pos (by omega)
  exact ⟨rfl, Memory.getLast?_eq_some_read_writeBytes s.mem (by rw [defaultOrigin]; omega) hne⟩

end Sys2Proof
